-- ==== Sys2Proof/Word.lean ====
section
/-! DEFINITION. The word types of the block: a register, a stream byte, an alphabet symbol and a table index
(spec/00_scope.md R5, R6, R9). -/

namespace Sys2Proof

/-- A register of the window, or a command word: 32 bits (R6, R21, R100). -/
abbrev Word := BitVec 32

/-- A stream byte, or a symbol carried in a lane: 8 bits (R9, R105). -/
abbrev Byte := BitVec 8

/-- An alphabet symbol or the padding symbol: a 7-bit character (R5, R23). -/
abbrev Symbol := BitVec 7

/-- An index into the encode table: 6 bits (R5). -/
abbrev Index := BitVec 6

/-- The byte offset of an access inside the 32-byte register window (R70). -/
abbrev Offset := BitVec 5

end Sys2Proof
end

