-- ==== Sys2Proof/Syntax.lean ====
section
/-! DEFINITION. The commands of the block: one constructor for each row of spec/opcode_table.json
(spec/30_encoding.md R101). A command word carries no operand (R104), so no constructor has an argument. -/

namespace Sys2Proof

/-- The command set `B64BT-1` (R2, R101). -/
inductive Instr where
  | nop    -- no operation (R270)
  | encg   -- encode one full group (R131)
  | enct1  -- encode a 1-byte tail (R161)
  | enct2  -- encode a 2-byte tail (R162)
  | decg   -- decode one full group that admits no padding (R226)
  | decgL  -- decg.l: decode the final group, padding admitted (R227)
  | dect2  -- decode an unpadded 2-symbol tail (R228)
  | dect3  -- decode an unpadded 3-symbol tail (R229)
  | elen   -- encode output length (R164)
  | dlen   -- decode length check and output length (R230)
  | clrs   -- clear STATUS (R271)
  deriving DecidableEq, Repr

/-- Every command, in the order of the opcode map (R101). -/
def Instr.all : List Instr :=
  [.nop, .encg, .enct1, .enct2, .decg, .decgL, .dect2, .dect3, .elen, .dlen, .clrs]

end Sys2Proof
end

