-- ==== Sys2Proof/WellFormed.lean ====
section
/-! DEFINITION. Well-formedness of a command word: the predicate `legal` of spec/30_encoding.md R102, one check for
each of its three clauses. A command has no operand, so every term of `Instr` is well formed; what can be ill formed is
the word the host writes to CMD. The decoder of Decode.lean is written from the opcode map R101 and the dispatch R103,
not from this predicate. -/

namespace Sys2Proof

/-- `w[31:5] == 0`: the reserved bits of the word are zero (R100, R102). -/
def legalReserved (w : Word) : Bool := w.extractLsb' 5 27 == 0#27

/-- `w[3:0]` is one of the ten operation codes in use (R102). -/
def legalOp (w : Word) : Bool :=
  [0x0#4, 0x1#4, 0x2#4, 0x3#4, 0x4#4, 0x5#4, 0x6#4, 0x8#4, 0x9#4, 0xF#4].contains (w.extractLsb' 0 4)

/-- `w[4] == 0 or w[3:0] == 0x4`: the "last group" modifier stands with OP = 0x4 only (R100, R102). -/
def legalLast (w : Word) : Bool := w.getLsbD 4 == false || w.extractLsb' 0 4 == 0x4#4

/-- A legal command word (R102). -/
def legal (w : Word) : Bool := legalReserved w && legalOp w && legalLast w

end Sys2Proof
end

