-- ==== Sys2Proof/Decode.lean ====
section
/-! DEFINITION. The command decoder, total on all 2^32 words and rejecting the illegal ones by name, and the encoder
written from the same table (spec/30_encoding.md R100-R103, R106). -/

namespace Sys2Proof

/-- Why a word is no command (R102: the four kinds of illegal word). -/
inductive DecodeError where
  /-- A bit of 31:5 is set. -/
  | reservedBits
  /-- OP is 0x7 or 0xA to 0xE. -/
  | reservedOp (op : BitVec 4)
  /-- L = 1 with an OP in use other than 0x4. -/
  | strayLast (op : BitVec 4)
  deriving DecidableEq, Repr

/-- Field OP, bits 3:0 (R100). -/
def opField (w : Word) : BitVec 4 := w.extractLsb' 0 4

/-- Field L, bit 4 (R100). -/
def lastField (w : Word) : Bool := w.getLsbD 4

/-- Field RSV, bits 31:5 (R100). -/
def reservedField (w : Word) : BitVec 27 := w.extractLsb' 5 27

/-- The opcode map R101 on the two fields OP and L. -/
def decodeFields (op : BitVec 4) (last : Bool) : Except DecodeError Instr :=
  match op.toNat, last with
  | 0x0, false => .ok .nop
  | 0x1, false => .ok .encg
  | 0x2, false => .ok .enct1
  | 0x3, false => .ok .enct2
  | 0x4, false => .ok .decg
  | 0x4, true => .ok .decgL
  | 0x5, false => .ok .dect2
  | 0x6, false => .ok .dect3
  | 0x8, false => .ok .elen
  | 0x9, false => .ok .dlen
  | 0xF, false => .ok .clrs
  | 0x7, _ => .error (.reservedOp op)
  | 0xA, _ => .error (.reservedOp op)
  | 0xB, _ => .error (.reservedOp op)
  | 0xC, _ => .error (.reservedOp op)
  | 0xD, _ => .error (.reservedOp op)
  | 0xE, _ => .error (.reservedOp op)
  | _, _ => .error (.strayLast op)

/-- The command a word written to CMD encodes, or why it encodes none (R102, R103). -/
def decode (w : Word) : Except DecodeError Instr :=
  if reservedField w ≠ 0#27 then .error .reservedBits else decodeFields (opField w) (lastField w)

/-- The fields OP and L of a command (R101). -/
def Instr.fields : Instr → BitVec 4 × Bool
  | .nop => (0x0#4, false)
  | .encg => (0x1#4, false)
  | .enct1 => (0x2#4, false)
  | .enct2 => (0x3#4, false)
  | .decg => (0x4#4, false)
  | .decgL => (0x4#4, true)
  | .dect2 => (0x5#4, false)
  | .dect3 => (0x6#4, false)
  | .elen => (0x8#4, false)
  | .dlen => (0x9#4, false)
  | .clrs => (0xF#4, false)

/-- The command word of a command: RSV = 0 above L above OP (R100, R101). -/
def encode (i : Instr) : Word :=
  (i.fields.1).setWidth 32 ||| ((BitVec.ofBool i.fields.2).setWidth 32 <<< 4)

/-- The command the decoder reads from a table word of `nbits` bits. A command is exactly one 32-bit word (R106), so a
word that does not fit 32 bits is none (notes/assumptions/15.md). -/
def decodeTableWord (nbits w : Nat) : Option Instr :=
  if w % 2 ^ nbits < 2 ^ 32 then
    match decode (BitVec.ofNat 32 (w % 2 ^ nbits)) with
    | .ok i => some i
    | .error _ => none
  else none

end Sys2Proof
end

