-- ==== Sys2Proof/Config.lean ====
section
/-! DEFINITION. What an implementation or its platform fixes and the spec leaves OPEN, and the values the spec leaves
free. Constants without a body: nothing can be proved of what they are. -/

namespace Sys2Proof

/-- `BASE` divided by 32: where the platform places the register window (spec/20_memory.md R70, 92 D2; OPEN). -/
opaque Config.baseIndex : Nat

/-- The host address of the register window, a multiple of 32 (R6, R70; notes/assumptions/5.md). -/
def Config.base : Nat := 32 * Config.baseIndex

/-- FREE VALUE: what the n-th host read that was in flight when reset was asserted returns
(spec/70_reset_and_hazards.md R341, 93 I11: any value; notes/assumptions/4.md). -/
opaque Config.freeRead : Nat → Word

end Sys2Proof
end

