-- ==== Sys2Proof/Machine/State.lean ====
section
/-! DEFINITION. The state of the machine as plain data: the five registers of the block's window that have storage
(spec/10_state.md R21), and beside them the model's own bus fields (notes/assumptions/1.md to 4.md). -/

namespace Sys2Proof.Machine

/-- The eight word slots of the register window (R21). -/
inductive Slot where
  | ctrl | alpha | cmd | din | dout | status | rsv18 | rsv1C
  deriving DecidableEq, Repr

/-- Cause codes of a failing command (spec/60_exceptions.md R300). Code 7 is reserved and never produced. -/
inductive Cause where
  | none | empty | length | padding | symbol | range | illegal
  deriving DecidableEq, Repr

/-- One host access to the window: a byte offset from `BASE` and a width in bytes (spec/20_memory.md R72, R73). Only
width 4 at a multiple of 4 is admitted (R75); the other accesses can be written down and are refused. -/
inductive HostAccess where
  | read (off : Offset) (width : Nat)
  | write (off : Offset) (width : Nat) (v : Word)
  deriving DecidableEq, Repr

/-- What reaches the block from outside: a host access, or the reset input with the access that was in flight when it
was asserted, if one was (spec/70_reset_and_hazards.md R341). -/
inductive BusEvent where
  | access (a : HostAccess)
  | reset (inFlight : Option HostAccess)
  deriving DecidableEq, Repr

/-- Why a run stops with a fault. No step of the block does: every failure of a command is a status report after which
the block goes on (R302, R306). -/
inductive Fault where
  /-- Raised by the host procedures `encodeUnits` and `encodeChunked` only, never by `step`: the Chunked Driver's buffer is below the
  progress bound and its loop makes no progress (spec/43_host_chunked_driver.md R195, 93 I14 "stuck"). Safe: the
  hardware's host hangs here, the model stops. -/
  | hostNoProgress
  deriving DecidableEq, Repr

/-- Why a run is refused. -/
inductive Refusal where
  /-- Raised by `exec` for a command that has no meaning yet; no arm does. Safe. -/
  | notModelled (mnemonic : String)
  /-- Raised by `step` for a host access that is not a 32-bit access at an offset that is a multiple of 4 (R75, 93 I8:
  "a model must refuse such an access: no step"). Safe. -/
  | unsupportedBusAccess (a : HostAccess)
  deriving DecidableEq, Repr

/-- The machine. CMD and the reserved slots have no storage (R28, R29), the tables are functions of CTRL and ALPHA
(R39), and the block holds nothing else (R40). -/
structure State where
  /-- CTRL, offset 0x00 (R22). -/
  ctrl : Word
  /-- ALPHA, offset 0x04 (R23). -/
  alpha : Word
  /-- DIN, offset 0x0C (R24). -/
  din : Word
  /-- DOUT, offset 0x10 (R26). -/
  dout : Word
  /-- STATUS, offset 0x14 (R27). -/
  status : Word
  /-- The model's own: what is still to reach the block, in the order it will (R81; notes/assumptions/1.md). -/
  bus : List BusEvent
  /-- The model's own: the values host reads have returned, the newest first (R72; notes/assumptions/2.md). -/
  reads : List Word
  /-- The model's own: how many free read values have been used (R341; notes/assumptions/4.md). -/
  freeReads : Nat
  deriving DecidableEq, Repr

/-- The machine right after reset (R340): padded mode, permissive decode, the standard alphabet with padding '='.
Nothing is on the bus, no read has been answered. -/
def State.reset : State where
  ctrl := 0x00000001#32
  alpha := 0x003D2F2B#32
  din := 0#32
  dout := 0#32
  status := 0#32
  bus := []
  reads := []
  freeReads := 0

end Sys2Proof.Machine
end

