-- ==== Sys2Proof/Machine/Flags.lean ====
section
/-! DEFINITION. Bit fields of a register, the fields of CTRL, ALPHA and STATUS, and every computation of STATUS
(spec/10_state.md R22, R23, R27, R41, R44, R46; spec/60_exceptions.md R300, R301). -/

namespace Sys2Proof.Machine

/-- Bits `lo+n-1 .. lo` of a register (R7). -/
def getField (w : Word) (lo n : Nat) : BitVec n := w.extractLsb' lo n

/-- A register with bits `lo+n-1 .. lo` replaced and every other bit kept (R10: `REG.FIELD <- v`). -/
def setField (w : Word) (lo n : Nat) (v : BitVec n) : Word :=
  (w &&& ~~~((BitVec.allOnes n).setWidth 32 <<< lo)) ||| (v.setWidth 32 <<< lo)

/-- The write mask of CTRL (R22, R73). -/
def ctrlMask : Word := 0x00000003#32

/-- The write mask of ALPHA (R23, R73). -/
def alphaMask : Word := 0x007F7F7F#32

/-- The bits of STATUS that are fields; the others are reserved and always 0 (R27). -/
def statusMask : Word := 0x007300FF#32

/-- CTRL.PAD_EN, bit 0 (R22). -/
def padEn (ctrl : Word) : Bool := ctrl.getLsbD 0

/-- CTRL.STRICT, bit 1 (R22). -/
def strict (ctrl : Word) : Bool := ctrl.getLsbD 1

/-- ALPHA.SYM62, bits 6:0 (R23). -/
def sym62 (alpha : Word) : Symbol := getField alpha 0 7

/-- ALPHA.SYM63, bits 14:8 (R23). -/
def sym63 (alpha : Word) : Symbol := getField alpha 8 7

/-- ALPHA.PADCH, bits 22:16 (R23). -/
def padch (alpha : Word) : Symbol := getField alpha 16 7

/-- STATUS.COUNT, bits 2:0 (R27). -/
def statusCount (st : Word) : BitVec 3 := getField st 0 3

/-- STATUS.ERR, bit 3 (R27). -/
def statusErr (st : Word) : Bool := st.getLsbD 3

/-- STATUS.CAUSE, bits 6:4 (R27). -/
def statusCause (st : Word) : BitVec 3 := getField st 4 3

/-- STATUS.OOB, bit 7 (R27). -/
def statusOob (st : Word) : Bool := st.getLsbD 7

/-- STATUS.SERR, bit 16 (R27). -/
def statusSerr (st : Word) : Bool := st.getLsbD 16

/-- STATUS.SOOB, bit 17 (R27). -/
def statusSoob (st : Word) : Bool := st.getLsbD 17

/-- STATUS.FCAUSE, bits 22:20 (R27). -/
def statusFcause (st : Word) : BitVec 3 := getField st 20 3

def withCount (st : Word) (v : BitVec 3) : Word := setField st 0 3 v
def withErr (st : Word) (b : Bool) : Word := setField st 3 1 (BitVec.ofBool b)
def withCause (st : Word) (v : BitVec 3) : Word := setField st 4 3 v
def withOob (st : Word) (b : Bool) : Word := setField st 7 1 (BitVec.ofBool b)
def withSerr (st : Word) (b : Bool) : Word := setField st 16 1 (BitVec.ofBool b)
def withSoob (st : Word) (b : Bool) : Word := setField st 17 1 (BitVec.ofBool b)
def withFcause (st : Word) (v : BitVec 3) : Word := setField st 20 3 v

/-- The cause codes of R300. -/
def Cause.code : Cause → BitVec 3
  | .none => 0
  | .empty => 1
  | .length => 2
  | .padding => 3
  | .symbol => 4
  | .range => 5
  | .illegal => 6

/-- The class of a cause: the source's one error `InvalidEncoding` is the codes 1 to 4 (R300). -/
def Cause.isInvalidEncoding : Cause → Bool
  | .empty | .length | .padding | .symbol => true
  | .none | .range | .illegal => false

/-- The class of a cause: the host's programming errors `CommandError` are the codes 5 and 6 (R300). -/
def Cause.isCommandError : Cause → Bool
  | .range | .illegal => true
  | .none | .empty | .length | .padding | .symbol => false

/-- What `complete` writes to STATUS (R41): SERR and FCAUSE are kept. -/
def statusComplete (count : BitVec 3) (oob : Bool) (st : Word) : Word :=
  withSoob (withOob (withCause (withErr (withCount st count) false) Cause.none.code) oob) (statusSoob st || oob)

/-- What `fail` writes to STATUS (R301): FCAUSE is written by the first failure after a clear only. -/
def statusFail (cause : Cause) (oob : Bool) (st : Word) : Word :=
  let failed :=
    withSoob (withSerr (withOob (withCause (withErr (withCount st 0) true) cause.code) oob) true)
      (statusSoob st || oob)
  if statusSerr st then failed else withFcause failed cause.code

end Sys2Proof.Machine
end

