-- ==== Sys2Proof/Machine/Tables.lean ====
section
/-! DEFINITION. The encode table, the reverse table and the padding test, as functions of CTRL and ALPHA
(spec/10_state.md R30-R39): they hold no storage, so a command always uses the values in force at its CMD write. -/

namespace Sys2Proof.Machine

/-- A symbol widened to a lane: `zext_8` (R7, R105). -/
def zext8 (c : Symbol) : Byte := c.setWidth 8

/-- `F(i)`, the ASCII code of the fixed symbol at position `i` in 0..61 (R30; notes/assumptions/12.md). -/
def fixedSymbol (i : Nat) : Nat :=
  if i ≤ 25 then 0x41 + i
  else if i ≤ 51 then 0x61 + (i - 26)
  else 0x30 + (i - 52)

/-- `T(i)`, the encode table (R31). -/
def encodeTable (alpha : Word) (i : Index) : Symbol :=
  if i.toNat ≤ 61 then BitVec.ofNat 7 (fixedSymbol i.toNat)
  else if i.toNat = 62 then sym62 alpha
  else sym63 alpha

/-- The symbol at an index, as the byte of a lane: `zext_8(T(i))`. -/
def symbolByte (alpha : Word) (i : Index) : Byte := zext8 (encodeTable alpha i)

/-- The indices in 0..63 whose symbol is `c`, in rising order: the set that R32 and R33 speak of. -/
def indicesOf (alpha : Word) (c : Byte) : List Nat :=
  (List.range 64).filter fun i => symbolByte alpha (BitVec.ofNat 6 i) == c

/-- `inA(c)`: the byte `c` is in the alphabet (R32). -/
def inAlphabet (alpha : Word) (c : Byte) : Bool := !(indicesOf alpha c).isEmpty

/-- `D(c)`: the highest index whose symbol is `c`, and 0 for a byte outside the alphabet (R33, R36). -/
def decodeValue (alpha : Word) (c : Byte) : Index := BitVec.ofNat 6 ((indicesOf alpha c).foldl max 0)

/-- The padding symbol as the byte of a lane: `zext_8(ALPHA.PADCH)`. -/
def padByte (alpha : Word) : Byte := zext8 (padch alpha)

/-- `isPad(c)`: the byte `c` is the padding symbol while padding is enabled (R34). -/
def isPad (ctrl alpha : Word) (c : Byte) : Bool := padEn ctrl && c == padByte alpha

/-- A symbol byte that is neither in the alphabet nor padding (glossary OOB, R220 class 3). -/
def isOob (ctrl alpha : Word) (c : Byte) : Bool := !inAlphabet alpha c && !isPad ctrl alpha c

/-- The OOB of a decode command that reads the symbols `cs` (R43). -/
def anyOob (ctrl alpha : Word) (cs : List Byte) : Bool := cs.any (isOob ctrl alpha)

/-- The class of a symbol byte (R220). -/
inductive SymbolClass where
  | padding | alphabet | oob
  deriving DecidableEq, Repr

/-- R220: padding is tested before the alphabet. -/
def classify (ctrl alpha : Word) (c : Byte) : SymbolClass :=
  if isPad ctrl alpha c then .padding else if inAlphabet alpha c then .alphabet else .oob

/-- `WF`: the well-formed configurations (R37). The block computes it nowhere; claims about round trip take it. -/
def WellFormedConfig (ctrl alpha : Word) : Prop :=
  (∀ i j : Index, i ≠ j → encodeTable alpha i ≠ encodeTable alpha j) ∧
    (padEn ctrl = false ∨ inAlphabet alpha (padByte alpha) = false)

end Sys2Proof.Machine
end

