-- ==== Sys2Proof/Machine/Operands.lean ====
section
/-! DEFINITION. The operand and result forms: lanes of DIN and DOUT, the index extraction of the encoder, the byte
reconstruction of the decoder and the two length contracts (spec/00_scope.md R9; spec/20_memory.md R78-R80;
spec/30_encoding.md R104; R130, R160, R222, R223, R230). The formulas are on unbounded naturals, as the spec writes
them (R7). -/

namespace Sys2Proof.Machine

/-- `lane(w, k) = w[8k+7 : 8k]` (R9, R79). -/
def lane (w : Word) (k : Nat) : Byte := w.extractLsb' (8 * k) 8

/-- `word(l0, l1, l2, l3)`, lane 0 in the low byte (R9). -/
def word (l0 l1 l2 l3 : Byte) : Word :=
  l0.setWidth 32 ||| (l1.setWidth 32 <<< 8) ||| (l2.setWidth 32 <<< 16) ||| (l3.setWidth 32 <<< 24)

/-- Lanes `0 .. n-1` of a word in stream order. -/
def lanes (w : Word) (n : Nat) : List Byte := (List.range n).map (lane w)

/-- `i0` of a group (R130). -/
def index0 (b0 : Byte) : Index := BitVec.ofNat 6 (b0.toNat >>> 2)

/-- `i1` of a group (R130). -/
def index1 (b0 b1 : Byte) : Index := BitVec.ofNat 6 (((b0.toNat <<< 4) &&& 0x3F) ||| (b1.toNat >>> 4))

/-- `i2` of a group (R130). -/
def index2 (b1 b2 : Byte) : Index := BitVec.ofNat 6 (((b1.toNat <<< 2) &&& 0x3F) ||| (b2.toNat >>> 6))

/-- `i3` of a group (R130). -/
def index3 (b2 : Byte) : Index := BitVec.ofNat 6 (b2.toNat &&& 0x3F)

/-- `i1` of a 1-byte tail (R161). -/
def tailIndex1 (b0 : Byte) : Index := BitVec.ofNat 6 ((b0.toNat <<< 4) &&& 0x3F)

/-- `i1` of a 2-byte tail, as R162 writes it. -/
def tailIndex1Of2 (b0 b1 : Byte) : Index := BitVec.ofNat 6 (((b0.toNat <<< 4) ||| (b1.toNat >>> 4)) &&& 0x3F)

/-- `i2` of a 2-byte tail (R162). -/
def tailIndex2 (b1 : Byte) : Index := BitVec.ofNat 6 ((b1.toNat <<< 2) &&& 0x3F)

/-- `byte0` of a decoded group (R222, R223). -/
def byte0 (v0 v1 : Index) : Byte := BitVec.ofNat 8 (((v0.toNat <<< 2) ||| (v1.toNat >>> 4)) &&& 0xFF)

/-- `byte1` of a decoded group (R222, R223). -/
def byte1 (v1 v2 : Index) : Byte := BitVec.ofNat 8 (((v1.toNat <<< 4) ||| (v2.toNat >>> 2)) &&& 0xFF)

/-- `byte2` of a decoded group (R222). -/
def byte2 (v2 v3 : Index) : Byte := BitVec.ofNat 8 (((v2.toNat <<< 6) ||| v3.toNat) &&& 0xFF)

/-- `tail(r)` of the output length contract, for a remainder of 0, 1 or 2 bytes (R160, 90 C1). -/
def tailLength (padded : Bool) (r : Nat) : Nat :=
  match r with
  | 0 => 0
  | 1 => if padded then 4 else 2
  | _ => if padded then 4 else 3

/-- `target_length(n)`, an exact natural number (R160). -/
def targetLength (padded : Bool) (n : Nat) : Nat := (n / 3) * 4 + tailLength padded (n % 3)

/-- `extra(r)`, the output bytes of an unpadded remainder of 0, 2 or 3 symbols (R230, 90 C5). A remainder of 1 is
rejected before it is asked for. -/
def extraBytes (r : Nat) : Nat :=
  match r with
  | 2 => 1
  | 3 => 2
  | _ => 0

end Sys2Proof.Machine
end

