-- ==== Sys2Proof/Machine/Ops.lean ====
section
/-! DEFINITION. The named operations on the machine: the register window as host reads and writes see it, the two ends
of a command (`complete` and `fail`, which is this block's only exception report) and the clearing of STATUS. -/

namespace Sys2Proof.Machine

/-- The byte offset of a slot from `BASE` (spec/10_state.md R21). -/
def Slot.offset : Slot → Offset
  | .ctrl => 0x00
  | .alpha => 0x04
  | .cmd => 0x08
  | .din => 0x0C
  | .dout => 0x10
  | .status => 0x14
  | .rsv18 => 0x18
  | .rsv1C => 0x1C

/-- The slot at an offset that is a multiple of 4 (R72); none where the offset is not (R75). -/
def slotAt (off : Offset) : Option Slot :=
  match off.toNat with
  | 0x00 => some .ctrl
  | 0x04 => some .alpha
  | 0x08 => some .cmd
  | 0x0C => some .din
  | 0x10 => some .dout
  | 0x14 => some .status
  | 0x18 => some .rsv18
  | 0x1C => some .rsv1C
  | _ => none

/-- The slot a host access reaches: only a 32-bit access at a multiple of 4 is admitted (R72, R75). -/
def admittedSlot (off : Offset) (width : Nat) : Option Slot := if width = 4 then slotAt off else none

/-- The offset in the window that a host address selects; none outside the window, where an access is not an access
to this block (R70, R75). `BASE` is a multiple of 32, so the offset is the low five bits of the address. DESIGN CHOICE
(notes/assumptions/16.md): an access is where its first byte is, so one that begins below `BASE` and reaches into the
window is no access to the block. -/
def windowOffset (addr : Nat) : Option Offset :=
  if addr / 32 = Config.baseIndex then some (BitVec.ofNat 5 addr) else none

/-- What a host read of a slot returns (R72). CMD and the reserved slots read 0. -/
def readSlot (slot : Slot) (s : State) : Word :=
  match slot with
  | .ctrl => s.ctrl
  | .alpha => s.alpha
  | .cmd => 0
  | .din => s.din
  | .dout => s.dout
  | .status => s.status
  | .rsv18 => 0
  | .rsv1C => 0

/-- What a host write does to the registers (R73). A write to CMD changes no register by itself: it performs a command,
which Machine/Bus.lean dispatches. Writes to DOUT, STATUS and the reserved slots have no effect. -/
def writeSlot (slot : Slot) (v : Word) (s : State) : State :=
  match slot with
  | .ctrl => { s with ctrl := v &&& ctrlMask }
  | .alpha => { s with alpha := v &&& alphaMask }
  | .cmd => s
  | .din => { s with din := v }
  | .dout => s
  | .status => s
  | .rsv18 => s
  | .rsv1C => s

/-- `complete(result, count, oob)`: the successful end of a transform or length command (R41). -/
def complete (result : Word) (count : BitVec 3) (oob : Bool) (s : State) : State :=
  { s with dout := result, status := statusComplete count oob s.status }

/-- `fail(cause, oob)`, written `raise InvalidEncoding(cause)` or `raise CommandError(cause)`: the report of a failing
command (R301). It is not a trap: nothing else is saved and control does not move (R306), so there is no return from it
beside `clearStatus` (R307). -/
def fail (cause : Cause) (oob : Bool) (s : State) : State :=
  { s with dout := 0, status := statusFail cause oob s.status }

/-- `STATUS <- 0x00000000`, the effect of CLRS (R271). -/
def clearStatus (s : State) : State := { s with status := 0 }

/-- What the reset input does to the registers (R340); what has not reached the block yet and what the host has already
read are not the block's. -/
def resetRegisters (s : State) : State :=
  { s with
    ctrl := State.reset.ctrl
    alpha := State.reset.alpha
    din := State.reset.din
    dout := State.reset.dout
    status := State.reset.status }

/-- A read value handed to the host (R72). -/
def answerRead (v : Word) (s : State) : State := { s with reads := v :: s.reads }

/-- A host read in flight at reset: it returns a free value (R341, 93 I11). -/
def answerFree (s : State) : State :=
  { answerRead (Config.freeRead s.freeReads) s with freeReads := s.freeReads + 1 }

/-- The value the host's latest read returned; 0 before any (never asked for by the host procedures). -/
def lastRead (s : State) : Word := s.reads.headD 0

end Sys2Proof.Machine
end

