-- ==== Sys2Proof/Machine/Control.lean ====
section
/-! DEFINITION. The control family: NOP and CLRS (spec/45_control.md R270, R271). -/

namespace Sys2Proof.Machine

/-- NOP: no register changes (R270). -/
def execNop (s : State) : Host.Outcome State Fault Refusal := .next s

/-- CLRS: every STATUS field to 0, DOUT kept (R271). -/
def execClrs (s : State) : Host.Outcome State Fault Refusal := .next (clearStatus s)

end Sys2Proof.Machine
end

