-- ==== Sys2Proof/Machine/DecodeGroup.lean ====
section
/-! DEFINITION. The decode family: DECG, DECG.L, DECT2, DECT3, DLEN (spec/44_decode.md R220-R230). The tests stand in
the order of R224: LENGTH, PADDING, SYMBOL. -/

namespace Sys2Proof.Machine

/-- The last test of a decode command (R224 points 3 and 4): an OOB symbol fails a strict command, and otherwise the
command ends with its result. -/
def finishDecode (result : Word) (count : BitVec 3) (oob : Bool) (s : State) : State :=
  if strict s.ctrl && oob then fail .symbol oob s else complete result count oob s

/-- How many bytes the final group gives by its padding pattern; none where the padding is misplaced (R227). -/
def finalGroupCount (p0 p1 p2 p3 : Bool) : Option Nat :=
  match p0, p1, p2, p3 with
  | false, false, false, false => some 3
  | false, false, false, true => some 2
  | false, false, true, true => some 1
  | _, _, _, _ => none

/-- The word of the first `n` of three bytes, the other lanes 0 (R227). -/
def firstBytes (n : Nat) (b0 b1 b2 : Byte) : Word :=
  word (if 0 < n then b0 else 0) (if 1 < n then b1 else 0) (if 2 < n then b2 else 0) 0

/-- `v_k` of the final group: `D(s_k)` for `k` in 0..n and 0 above (R227). -/
def finalValue (alpha : Word) (n k : Nat) (c : Byte) : Index := if k ≤ n then decodeValue alpha c else 0

/-- DECG: decode one full group that admits no padding (R226). -/
def execDecg (s : State) : Host.Outcome State Fault Refusal :=
  let s0 := lane s.din 0
  let s1 := lane s.din 1
  let s2 := lane s.din 2
  let s3 := lane s.din 3
  let oob := anyOob s.ctrl s.alpha [s0, s1, s2, s3]
  let v := decodeValue s.alpha
  if [s0, s1, s2, s3].any (isPad s.ctrl s.alpha) then .next (fail .padding oob s)
  else .next (finishDecode
    (word (byte0 (v s0) (v s1)) (byte1 (v s1) (v s2)) (byte2 (v s2) (v s3)) 0) 3 oob s)

/-- DECG.L: decode the final group, padding admitted at its end (R227). -/
def execDecgL (s : State) : Host.Outcome State Fault Refusal :=
  let s0 := lane s.din 0
  let s1 := lane s.din 1
  let s2 := lane s.din 2
  let s3 := lane s.din 3
  let oob := anyOob s.ctrl s.alpha [s0, s1, s2, s3]
  let p := isPad s.ctrl s.alpha
  match finalGroupCount (p s0) (p s1) (p s2) (p s3) with
  | none => .next (fail .padding oob s)
  | some n =>
    let v0 := finalValue s.alpha n 0 s0
    let v1 := finalValue s.alpha n 1 s1
    let v2 := finalValue s.alpha n 2 s2
    let v3 := finalValue s.alpha n 3 s3
    .next (finishDecode (firstBytes n (byte0 v0 v1) (byte1 v1 v2) (byte2 v2 v3)) (BitVec.ofNat 3 n) oob s)

/-- DECT2: decode an unpadded 2-symbol tail to one byte (R228). -/
def execDect2 (s : State) : Host.Outcome State Fault Refusal :=
  let s0 := lane s.din 0
  let s1 := lane s.din 1
  let oob := anyOob s.ctrl s.alpha [s0, s1]
  let v := decodeValue s.alpha
  if padEn s.ctrl then .next (fail .length oob s)
  else .next (finishDecode (word (byte0 (v s0) (v s1)) 0 0 0) 1 oob s)

/-- DECT3: decode an unpadded 3-symbol tail to two bytes (R229). -/
def execDect3 (s : State) : Host.Outcome State Fault Refusal :=
  let s0 := lane s.din 0
  let s1 := lane s.din 1
  let s2 := lane s.din 2
  let oob := anyOob s.ctrl s.alpha [s0, s1, s2]
  let v := decodeValue s.alpha
  if padEn s.ctrl then .next (fail .length oob s)
  else .next (finishDecode (word (byte0 (v s0) (v s1)) (byte1 (v s1) (v s2)) 0 0) 2 oob s)

/-- DLEN: validate the length of a decode input and give its output length (R230). -/
def execDlen (s : State) : Host.Outcome State Fault Refusal :=
  let len := s.din.toNat
  if len = 0 then .next (fail .empty false s)
  else if padEn s.ctrl then
    if len % 4 ≠ 0 then .next (fail .length false s)
    else .next (complete (BitVec.ofNat 32 ((len / 4) * 3)) 0 false s)
  else
    if len % 4 = 1 then .next (fail .length false s)
    else .next (complete (BitVec.ofNat 32 ((len / 4) * 3 + extraBytes (len % 4))) 0 false s)

end Sys2Proof.Machine
end

