-- ==== Sys2Proof/Machine/EncodeGroup.lean ====
section
/-! DEFINITION. The encode family, full group: ENCG (spec/41_encode_group.md R130, R131). -/

namespace Sys2Proof.Machine

/-- ENCG: encode one full group (R131). Lane 3 of DIN is ignored; the padding policy is not read. -/
def execEncg (s : State) : Host.Outcome State Fault Refusal :=
  let b0 := lane s.din 0
  let b1 := lane s.din 1
  let b2 := lane s.din 2
  let t := symbolByte s.alpha
  .next (complete (word (t (index0 b0)) (t (index1 b0 b1)) (t (index2 b1 b2)) (t (index3 b2))) 4 false s)

end Sys2Proof.Machine
end

