-- ==== Sys2Proof/Machine/EncodeTail.lean ====
section
/-! DEFINITION. The encode family, tails and output length: ENCT1, ENCT2, ELEN (spec/42_encode_tail.md R161, R162,
R164). -/

namespace Sys2Proof.Machine

/-- ENCT1: encode a 1-byte tail (R161). -/
def execEnct1 (s : State) : Host.Outcome State Fault Refusal :=
  let b0 := lane s.din 0
  let s0 := symbolByte s.alpha (index0 b0)
  let s1 := symbolByte s.alpha (tailIndex1 b0)
  let p := padByte s.alpha
  if padEn s.ctrl then .next (complete (word s0 s1 p p) 4 false s)
  else .next (complete (word s0 s1 0 0) 2 false s)

/-- ENCT2: encode a 2-byte tail (R162). -/
def execEnct2 (s : State) : Host.Outcome State Fault Refusal :=
  let b0 := lane s.din 0
  let b1 := lane s.din 1
  let s0 := symbolByte s.alpha (index0 b0)
  let s1 := symbolByte s.alpha (tailIndex1Of2 b0 b1)
  let s2 := symbolByte s.alpha (tailIndex2 b1)
  if padEn s.ctrl then .next (complete (word s0 s1 s2 (padByte s.alpha)) 4 false s)
  else .next (complete (word s0 s1 s2 0) 3 false s)

/-- ELEN: `target_length` of the input length in DIN, or RANGE where it does not fit 32 bits (R164). -/
def execElen (s : State) : Host.Outcome State Fault Refusal :=
  let t := targetLength (padEn s.ctrl) s.din.toNat
  if t > 0xFFFFFFFF then .next (fail .range false s)
  else .next (complete (BitVec.ofNat 32 t) 0 false s)

end Sys2Proof.Machine
end

