-- ==== Sys2Proof/Machine/Dispatch.lean ====
section
/-! DEFINITION. The command dispatch (spec/30_encoding.md R103): one arm per command. -/

namespace Sys2Proof.Machine

def exec (i : Instr) (s : State) : Host.Outcome State Fault Refusal :=
  match i with
  | .nop => Sys2Proof.Machine.execNop s
  | .encg => Sys2Proof.Machine.execEncg s
  | .enct1 => Sys2Proof.Machine.execEnct1 s
  | .enct2 => Sys2Proof.Machine.execEnct2 s
  | .decg => Sys2Proof.Machine.execDecg s
  | .decgL => Sys2Proof.Machine.execDecgL s
  | .dect2 => Sys2Proof.Machine.execDect2 s
  | .dect3 => Sys2Proof.Machine.execDect3 s
  | .elen => Sys2Proof.Machine.execElen s
  | .dlen => Sys2Proof.Machine.execDlen s
  | .clrs => Sys2Proof.Machine.execClrs s

end Sys2Proof.Machine
end

