-- ==== Sys2Proof/Machine/Bus.lean ====
section
/-! DEFINITION. What reaches the block: host reads, host writes, commands and the reset input
(spec/20_memory.md R72-R77, R81; spec/30_encoding.md R102, R103; spec/70_reset_and_hazards.md R341). -/

namespace Sys2Proof.Machine

/-- A host write of `w` to CMD: the command `w` encodes, whole and in one step; an illegal word fails with ILLEGAL
before any operand is read (R28, R102, R103, R304). -/
def performCommand (w : Word) (s : State) : Host.Outcome State Fault Refusal :=
  match decode w with
  | .ok i => exec i s
  | .error _ => .next (fail .illegal false s)

/-- One host access (R72, R73). An access that is not admitted is refused (R75, 93 I8;
notes/assumptions/13.md). -/
def performAccess (a : HostAccess) (s : State) : Host.Outcome State Fault Refusal :=
  match a with
  | .read off width =>
    match admittedSlot off width with
    | some slot => .next (answerRead (readSlot slot s) s)
    | none => .refused (.unsupportedBusAccess a)
  | .write off width v =>
    match admittedSlot off width with
    | some .cmd => performCommand v s
    | some slot => .next (writeSlot slot v s)
    | none => .refused (.unsupportedBusAccess a)

/-- The reset input (R341): it takes effect between host accesses and sets every register; a write in flight leaves
nothing behind, a read in flight returns a free value (notes/assumptions/6.md). DESIGN CHOICE (notes/assumptions/17.md):
that holds of every access in flight, one that R75 does not admit among them. -/
def performReset (inFlight : Option HostAccess) (s : State) : State :=
  match inFlight with
  | none => resetRegisters s
  | some (.write _ _ _) => resetRegisters s
  | some (.read _ _) => answerFree (resetRegisters s)

/-- One event at the block. -/
def performEvent (e : BusEvent) (s : State) : Host.Outcome State Fault Refusal :=
  match e with
  | .access a => performAccess a s
  | .reset inFlight => .next (performReset inFlight s)

/-- A block no access has reached is idle and keeps every register (R20, R325); otherwise the oldest event that has
reached it is performed whole before the next is accepted (R76, R81). -/
def performNext (s : State) : Host.Outcome State Fault Refusal :=
  match s.bus with
  | [] => .next s
  | e :: rest => performEvent e { s with bus := rest }

/-- The event that a host read at an address is to the block; none outside the window (R72, R75). -/
def readEvent (addr width : Nat) : Option BusEvent :=
  (windowOffset addr).map fun off => .access (.read off width)

/-- The event that a host write at an address is to the block; none outside the window (R73, R75). -/
def writeEvent (addr width : Nat) (v : Word) : Option BusEvent :=
  (windowOffset addr).map fun off => .access (.write off width v)

/-- The state in which an event is the next to reach the block. -/
def enqueueFirst (e : BusEvent) (s : State) : State := { s with bus := e :: s.bus }

/-- The host's write of a command word to CMD, as an event. -/
def commandEvent (w : Word) : BusEvent := .access (.write Slot.cmd.offset 4 w)

end Sys2Proof.Machine
end

