-- ==== Sys2Proof/Machine/Step.lean ====
section
/-! DEFINITION. The step of the machine and the placing of a command word where the next step takes it. The block has no
program counter and fetches nothing (spec/10_state.md R25, spec/20_memory.md R84): its commands are the words the host
writes to CMD, in the order they reach it. -/

namespace Sys2Proof.Machine

/-- One step: the next event that reaches the block, performed whole (R20, R76, R81). -/
def step (s : State) : Host.Outcome State Fault Refusal := performNext s

/-- The host's write of the table word to CMD as the next event to reach the block (notes/assumptions/1.md). -/
def State.withFetchWord (s : State) (nbits w : Nat) : State :=
  enqueueFirst (commandEvent (BitVec.ofNat 32 (w % 2 ^ nbits))) s

end Sys2Proof.Machine
end

