-- ==== Sys2Proof/Machine/Strategies.lean ====
section
/-! DEFINITION. The equivalent forms of the index extraction that the spec records beside the scalar reference R130:
the bit slice, the replicated table and the two vector strategies with corrected constants
(spec/41_encode_group.md R132, R135, R136; spec/10_state.md R35; 90 C3, C4). No command uses them (92 D31): they are
here so that they can be compared with R130. -/

namespace Sys2Proof.Machine

/-- The four indices of a group by the scalar reference (R130), as natural numbers. -/
def scalarIndices (b0 b1 b2 : Byte) : List Nat :=
  [(index0 b0).toNat, (index1 b0 b1).toNat, (index2 b1 b2).toNat, (index3 b2).toNat]

/-- `g = cat(b0, b1, b2)`, 24 bits (R7, R132). -/
def groupBits (b0 b1 b2 : Byte) : BitVec 24 := b0 ++ b1 ++ b2

/-- Index `k` by the bit-slice form, `g[23-6k : 18-6k]` (R78, R132). -/
def sliceIndex (b0 b1 b2 : Byte) (k : Nat) : Index := (groupBits b0 b1 b2).extractLsb' (18 - 6 * k) 6

/-- The constant vector `M = {0, 16, 4, 1}`, which multiplies the previous lane byte (R135). -/
def spreadMultiplier : List Nat := [0, 16, 4, 1]

/-- The constant vector `D = {4, 16, 64, 1}`, which divides the lane's own byte (R135). -/
def spreadDivisor : List Nat := [4, 16, 64, 1]

/-- `x_m = ((L[m-1] * M[m]) mod 256) + (L[m] div D[m])` on the lane `L = [b0, b1, b2, 0]` with `L[-1] = 0` (R135). -/
def spreadLanes (b0 b1 b2 : Byte) : List Nat :=
  let own := [b0.toNat, b1.toNat, b2.toNat, 0]
  let previous := 0 :: own
  List.zipWith (· + ·) (List.zipWith (fun p m => p * m % 256) previous spreadMultiplier)
    (List.zipWith (· / ·) own spreadDivisor)

/-- `T4(j) = T(j mod 64)` for `j` in 0..255: the replicated table (R35). -/
def replicatedTable (alpha : Word) (j : Byte) : Symbol := encodeTable alpha (BitVec.ofNat 6 (j.toNat % 64))

/-- `w = cat(0x00, b0, b1, b2)` (R136). -/
def rearranged (b0 b1 b2 : Byte) : Word := 0x00#8 ++ b0 ++ b1 ++ b2

/-- `result = (w*64 & mask0) | (w*16 & mask1) | (w*4 & mask2) | (w & mask3)`, products mod 2^32 (R136). -/
def maskedProducts (w : Word) : Word :=
  (w * 64#32 &&& 0x3F000000#32) ||| (w * 16#32 &&& 0x003F0000#32) ||| (w * 4#32 &&& 0x00003F00#32) |||
    (w &&& 0x0000003F#32)

end Sys2Proof.Machine
end

