-- ==== Sys2Proof/Machine/HostProgram.lean ====
section
/-! DEFINITION. Host programs: the assembler lines, the pseudo-instructions and the construction sequence
(spec/30_encoding.md R110, R111; spec/70_reset_and_hazards.md R343). A line is one bus access; control flow between
lines is the host's own (R112). -/

namespace Sys2Proof.Machine

/-- The register names of the assembler (R110). -/
inductive Reg where
  | ctrl | alpha | cmd | din | dout | status
  deriving DecidableEq, Repr

/-- The slot of a register name (R21). -/
def Reg.slot : Reg → Slot
  | .ctrl => .ctrl
  | .alpha => .alpha
  | .cmd => .cmd
  | .din => .din
  | .dout => .dout
  | .status => .status

/-- `off(REG)` (R21, R110). -/
def Reg.offset (reg : Reg) : Offset := reg.slot.offset

/-- One line of a host program (R110): `wr REG, imm32`, `rd REG`, or a command mnemonic. -/
inductive HostLine where
  | wr (reg : Reg) (imm : Word)
  | rd (reg : Reg)
  | command (i : Instr)
  deriving DecidableEq, Repr

/-- The bus access a line encodes, as its offset and data (R110). -/
def HostLine.access : HostLine → HostAccess
  | .wr reg imm => .write reg.offset 4 imm
  | .rd reg => .read reg.offset 4
  | .command i => .write Slot.cmd.offset 4 (encode i)

/-- The bus access a line performs, at its host address: `MemWrite(BASE + off, 4, v)` or `MemRead(BASE + off, 4)`
(R110). -/
def HostLine.address : HostLine → Nat
  | .wr reg _ => Config.base + reg.offset.toNat
  | .rd reg => Config.base + reg.offset.toNat
  | .command _ => Config.base + Slot.cmd.offset.toNat

/-- The pseudo-instructions (R111): symbols and bytes are the bytes of their lanes. -/
inductive Pseudo where
  | enc3 (b0 b1 b2 : Byte)
  | enc1 (b0 : Byte)
  | enc2 (b0 b1 : Byte)
  | dec4 (s0 s1 s2 s3 : Byte)
  | decl (s0 s1 s2 s3 : Byte)
  | dec2 (s0 s1 : Byte)
  | dec3 (s0 s1 s2 : Byte)
  | cfg (c62 c63 : Byte) (pad : Option Byte) (strict : Bool)
  deriving DecidableEq, Repr

/-- `(s << 1)` and, in padded mode, `1 | (s << 1)` (R111, R343). -/
def ctrlImage (padded strict : Bool) : Word :=
  (BitVec.ofBool padded).setWidth 32 ||| ((BitVec.ofBool strict).setWidth 32 <<< 1)

/-- The expansion of a pseudo-instruction (R111). -/
def Pseudo.expand : Pseudo → List HostLine
  | .enc3 b0 b1 b2 => [.wr .din (word b0 b1 b2 0), .command .encg]
  | .enc1 b0 => [.wr .din (word b0 0 0 0), .command .enct1]
  | .enc2 b0 b1 => [.wr .din (word b0 b1 0 0), .command .enct2]
  | .dec4 s0 s1 s2 s3 => [.wr .din (word s0 s1 s2 s3), .command .decg]
  | .decl s0 s1 s2 s3 => [.wr .din (word s0 s1 s2 s3), .command .decgL]
  | .dec2 s0 s1 => [.wr .din (word s0 s1 0 0), .command .dect2]
  | .dec3 s0 s1 s2 => [.wr .din (word s0 s1 s2 0), .command .dect3]
  | .cfg c62 c63 pad strict =>
    [.wr .alpha (word c62 c63 (pad.getD 0) 0), .wr .ctrl (ctrlImage pad.isSome strict)]

/-- `construct(at62, at63, padding)` on character codes: the host sequence of R343, which is the pseudo-instruction
`cfg`; none where a character is above 0x7F and the host must refuse to construct. -/
def construct (at62 at63 : Nat) (padding : Option Nat) (strict : Bool) : Option (List HostLine) :=
  if at62 ≤ 0x7F ∧ at63 ≤ 0x7F ∧ padding.getD 0 ≤ 0x7F then
    some (Pseudo.cfg (BitVec.ofNat 8 at62) (BitVec.ofNat 8 at63) (padding.map (BitVec.ofNat 8)) strict).expand
  else none

/-- The outcome of a host procedure: what it gives, with the machine it leaves. -/
abbrev Run (α : Type) := Host.Outcome (α × State) Fault Refusal

/-- One host action after another; the first stop ends both. -/
def andThen {α β : Type} (r : Run α) (f : α → State → Run β) : Run β :=
  match r with
  | .next (a, s) => f a s
  | .fault x => .fault x
  | .refused x => .refused x

/-- The host performs one line: its access is the next to reach the block, and the block steps (R81;
notes/assumptions/7.md, 9.md). What it gives is
the value a read returned. -/
def runLine (l : HostLine) (s : State) : Run Word :=
  match step (enqueueFirst (.access l.access) s) with
  | .next t => .next (lastRead t, t)
  | .fault x => .fault x
  | .refused x => .refused x

/-- The host performs lines one after the other; it gives the value of the latest read. -/
def runLines : List HostLine → State → Run Unit
  | [], s => .next ((), s)
  | l :: ls, s => andThen (runLine l s) fun _ s => runLines ls s

end Sys2Proof.Machine
end

