-- ==== Sys2Proof/Machine/HostProtocol.lean ====
section
/-! DEFINITION. The host procedures that the spec states its whole-input claims through: whole-input encode, the block
transform over a span, the Chunked Driver and whole-string decode (spec/41_encode_group.md R133;
spec/43_host_chunked_driver.md R190-R195; spec/44_decode.md R240, R243, R247). They act on the block through its bus
only: every register they read or write is read or written by a line of Machine/HostProgram.lean. -/

namespace Sys2Proof.Machine

/-- The host reads a register. -/
def readReg (reg : Reg) (s : State) : Run Word := runLine (.rd reg) s

/-- The host writes DIN and then issues a command (R350). -/
def command (operand : Word) (i : Instr) (s : State) : Run Unit :=
  runLines [.wr .din operand, .command i] s

/-- `lanes 0..STATUS.COUNT-1 of DOUT` (R190, R243, R352). -/
def readResult (s : State) : Run (List Byte) :=
  andThen (readReg .status s) fun st s =>
  andThen (readReg .dout s) fun d s =>
  .next (lanes d (statusCount st).toNat, s)

/-- Lanes `0..n-1` of DOUT. -/
def readLanes (n : Nat) (s : State) : Run (List Byte) :=
  andThen (readReg .dout s) fun d s => .next (lanes d n, s)

/-- One command on one operand, and the `STATUS.COUNT` lanes it gives. -/
def transform (operand : Word) (i : Instr) (s : State) : Run (List Byte) :=
  andThen (command operand i s) fun _ s => readResult s

/-- One command on one operand, and lanes `0..n-1` of its result. -/
def transformLanes (operand : Word) (i : Instr) (n : Nat) (s : State) : Run (List Byte) :=
  andThen (command operand i s) fun _ s => readLanes n s

/-- `BT(bytes)`: the block transform over a span, one ENCG for each whole group (R133). A span that is no multiple of 3
bytes is a caller's error (R354); its remainder is left out. -/
def blockTransform : List Byte → State → Run (List Byte)
  | b0 :: b1 :: b2 :: rest, s =>
    andThen (transformLanes (word b0 b1 b2 0) .encg 4 s) fun symbols s =>
    andThen (blockTransform rest s) fun more s =>
    .next (symbols ++ more, s)
  | _, s => .next ([], s)

/-- The Tail Handler on the last 0, 1 or 2 bytes (R163, R190): no command for an empty tail. -/
def encodeTail : List Byte → State → Run (List Byte)
  | [], s => .next ([], s)
  | [b0], s => transform (word b0 0 0 0) .enct1 s
  | b0 :: b1 :: _, s => transform (word b0 b1 0 0) .enct2 s

/-- The block transform of the whole groups of a span and the tail of the rest (R190, R192). -/
def encodeSplit (bytes : List Byte) (s : State) : Run (List Byte) :=
  let k := bytes.length / 3 * 3
  andThen (blockTransform (bytes.take k) s) fun symbols s =>
  andThen (encodeTail (bytes.drop k) s) fun more s =>
  .next (symbols ++ more, s)

/-- `Encode(bytes)` (R190): the bulk through the block transform, then the tail. -/
def encodeAll (bytes : List Byte) (s : State) : Run (List Byte) := encodeSplit bytes s

/-- An encode frame whose output the host sizes first (R197): where ELEN fails with RANGE, or the length is no 32-bit
operand, the output length cannot be represented and the frame is not started (notes/assumptions/14.md). -/
def encodeSized (bytes : List Byte) (s : State) : Run (Option (List Byte)) :=
  if bytes.length ≤ 0xFFFFFFFF then
    andThen (command (BitVec.ofNat 32 bytes.length) .elen s) fun _ s =>
    andThen (readReg .status s) fun st s =>
    if statusErr st then .next (none, s)
    else andThen (encodeAll bytes s) fun out s => .next (some out, s)
  else .next (none, s)

/-- A fill of the working buffer (R192, R194): whole units of the source, at most `most` of them, as far as they fit in
`room` bytes, and what is left of the source. A unit is what a fill may not split: one byte of a byte source, the
encoded bytes of one character of a text source (notes/assumptions/10.md). -/
def fillUnits (room most : Nat) : List (List Byte) → List Byte × List (List Byte)
  | [] => ([], [])
  | u :: us =>
    if 0 < most ∧ u.length ≤ room then
      let rest := fillUnits (room - u.length) (most - 1) us
      (u ++ rest.1, rest.2)
    else ([], u :: us)

/-- The loop of the Chunked Driver (R192). `rounds` bounds the iterations, and with `r` iterations left after this one
the host fills at most `more r + 1` units: R192 says "at most", so the size of each fill is the host's. A fill that
moves nothing leaves a buffer of at most two bytes as it is, and so does every later one: where the bound runs out the
loop is stuck (R195, 93 I14; notes/assumptions/10.md). -/
def chunkLoop (cap : Nat) (more : Nat → Nat) : Nat → List Byte → List (List Byte) → State → Run (List Byte)
  | 0, _, _, _ => .fault .hostNoProgress
  | rounds + 1, buf, source, s =>
    let fill := fillUnits (cap - buf.length) (more rounds + 1) source
    let buf := buf ++ fill.1
    if fill.2.isEmpty then encodeSplit buf s
    else
      let leftover := buf.length % 3
      andThen (blockTransform (buf.take (buf.length - leftover)) s) fun symbols s =>
      andThen (chunkLoop cap more rounds (buf.drop (buf.length - leftover)) fill.2 s) fun rest s =>
      .next (symbols ++ rest, s)

/-- The Chunked Driver on a source of indivisible units, with a working buffer of `cap` bytes (`CHUNK_CAP`, R192,
R194) and fills of the sizes `more` says. -/
def encodeUnits (cap : Nat) (more : Nat → Nat) (units : List (List Byte)) (s : State) : Run (List Byte) :=
  chunkLoop cap more (units.length + 1) [] units s

/-- The Chunked Driver on a byte source (R192). -/
def encodeChunked (cap : Nat) (more : Nat → Nat) (bytes : List Byte) (s : State) : Run (List Byte) :=
  encodeUnits cap more (bytes.map fun b => [b]) s

/-- The outcome of a whole-string decode (R243). -/
inductive DecodeResult where
  | bytes (out : List Byte)
  | invalidEncoding (cause : BitVec 3)
  deriving DecidableEq, Repr

/-- The groups and the tail of a decode frame (R243): the last group of a padded frame is decoded by DECG.L. -/
def decodeGroups (padded : Bool) : List Byte → State → Run (List Byte)
  | s0 :: s1 :: s2 :: s3 :: rest, s =>
    let i := if padded && rest.length < 4 then Instr.decgL else Instr.decg
    andThen (transform (word s0 s1 s2 s3) i s) fun out s =>
    andThen (decodeGroups padded rest s) fun more s =>
    .next (out ++ more, s)
  | [s0, s1, s2], s => if padded then .next ([], s) else transformLanes (word s0 s1 s2 0) .dect3 2 s
  | [s0, s1], s => if padded then .next ([], s) else transformLanes (word s0 s1 0 0) .dect2 1 s
  | _, s => .next ([], s)

/-- The end of a decode frame (R243, R244): no byte leaves the host unless SERR is 0. -/
def finishFrame (out : List Byte) (s : State) : Run DecodeResult :=
  andThen (readReg .status s) fun st s =>
  .next (if statusSerr st then .invalidEncoding (statusFcause st) else .bytes out, s)

/-- `Decode(str)` on the symbol bytes of a string (R243): clear, check the length, decode the groups, check the
frame (notes/assumptions/8.md, 11.md). -/
def decodeAll (str : List Byte) (s : State) : Run DecodeResult :=
  andThen (runLine (.command .clrs) s) fun _ s =>
  andThen (command (BitVec.ofNat 32 str.length) .dlen s) fun _ s =>
  andThen (readReg .status s) fun st s =>
  if statusErr st then .next (.invalidEncoding (statusCause st), s)
  else
    andThen (readReg .ctrl s) fun ctrl s =>
    andThen (decodeGroups (padEn ctrl) str s) finishFrame

/-- The lane byte of a character: a code above 0x7F is presented as 0x80 (R247). -/
def presentChar (c : Nat) : Byte := if c ≤ 0x7F then BitVec.ofNat 8 c else 0x80

/-- `Decode` of a string of characters, given by their codes (R243, R247). -/
def decodeString (chars : List Nat) (s : State) : Run DecodeResult := decodeAll (chars.map presentChar) s

/-- A padding symbol of a padded string stands only as the final one or two characters (R240). -/
def paddingPlaced (ctrl alpha : Word) (str : List Byte) : Bool :=
  let pad := isPad ctrl alpha
  let body := str.take (str.length - 2)
  let last := str.drop (str.length - 2)
  !body.any pad && match last with
    | [a, b] => !pad a || pad b
    | _ => true

/-- Whether a string passes the validation of a whole decode (R240). -/
def validString (ctrl alpha : Word) (str : List Byte) : Bool :=
  !str.isEmpty
    && (if padEn ctrl then str.length % 4 == 0 && paddingPlaced ctrl alpha str else !(str.length % 4 == 1))
    && !(strict ctrl && anyOob ctrl alpha str)

end Sys2Proof.Machine
end

