-- ==== Sys2Proof/Safety.lean ====
section
/-! DEFINITION. The terms the claims use: what the two ends of a command leave, the registers a command may not touch,
and the register invariant that every step keeps. -/

namespace Sys2Proof.Machine

/-- Everything but DOUT and STATUS is as before: the frame of every command (R24, R134, R302). -/
def SameBesidesResult (s t : State) : Prop :=
  t.ctrl = s.ctrl ∧ t.alpha = s.alpha ∧ t.din = s.din ∧ t.bus = s.bus ∧ t.reads = s.reads ∧ t.freeReads = s.freeReads

/-- The reserved bits of STATUS are as before (R27). -/
def SameStatusReserved (s t : State) : Prop := t.status &&& ~~~statusMask = s.status &&& ~~~statusMask

/-- What R41 says of a successful command, field by field: DOUT and the per-command fields are written, SOOB
accumulates, SERR and FCAUSE are unchanged, and nothing else changes. -/
def CompletedWith (s t : State) (result : Word) (count : BitVec 3) (oob : Bool) : Prop :=
  t.dout = result ∧ statusCount t.status = count ∧ statusErr t.status = false ∧ statusCause t.status = 0 ∧
    statusOob t.status = oob ∧ statusSoob t.status = (statusSoob s.status || oob) ∧
    statusSerr t.status = statusSerr s.status ∧ statusFcause t.status = statusFcause s.status ∧
    SameStatusReserved s t ∧ SameBesidesResult s t

/-- What R301 says of a failing command, field by field: DOUT is 0, the cause is reported, SERR is set, SOOB
accumulates, FCAUSE is written by the first failure only, and nothing else changes. -/
def FailedWith (s t : State) (cause : BitVec 3) (oob : Bool) : Prop :=
  t.dout = 0 ∧ statusCount t.status = 0 ∧ statusErr t.status = true ∧ statusCause t.status = cause ∧
    statusOob t.status = oob ∧ statusSerr t.status = true ∧ statusSoob t.status = (statusSoob s.status || oob) ∧
    statusFcause t.status = (if statusSerr s.status then statusFcause s.status else cause) ∧
    SameStatusReserved s t ∧ SameBesidesResult s t

/-- The register invariant: reserved bits read 0 (R22, R23, R27, R45), COUNT is 0 to 4 and no cause is the reserved
code (R27, R300, 93 I12), CAUSE is 0 exactly when ERR is 0 (R27), a failed command left COUNT and DOUT 0 and SERR set
(R301, R352), OOB is in SOOB, and FCAUSE is 0 exactly when SERR is 0 (R27). -/
structure RegistersLegal (s : State) : Prop where
  ctrl_reserved : s.ctrl &&& ~~~ctrlMask = 0
  alpha_reserved : s.alpha &&& ~~~alphaMask = 0
  status_reserved : s.status &&& ~~~statusMask = 0
  count_le : (statusCount s.status).toNat ≤ 4
  cause_legal : statusCause s.status ≠ 7
  fcause_legal : statusFcause s.status ≠ 7
  err_cause : statusErr s.status = false ↔ statusCause s.status = 0
  err_result : statusErr s.status = true → statusCount s.status = 0 ∧ s.dout = 0
  err_sticky : statusErr s.status = true → statusSerr s.status = true
  oob_sticky : statusOob s.status = true → statusSoob s.status = true
  serr_fcause : statusSerr s.status = false ↔ statusFcause s.status = 0

/-- The decode value of lane `k` of DIN under the state's configuration, as a natural number (R221). -/
def operandValue (s : State) (k : Nat) : Nat := (decodeValue s.alpha (lane s.din k)).toNat

/-- Whether lane `k` of DIN is the padding symbol under the state's configuration (R34). -/
def operandIsPad (s : State) (k : Nat) : Bool := isPad s.ctrl s.alpha (lane s.din k)

/-- The OOB of a decode command that reads lanes `0..n-1` of DIN (R43). -/
def operandOob (s : State) (n : Nat) : Bool := anyOob s.ctrl s.alpha (lanes s.din n)

/-- The host access that a state's step performs next is a write of a command word to CMD (R28). -/
def nextIsCommand (s : State) (w : Word) : Prop := ∃ rest, s.bus = commandEvent w :: rest

/-- The event that a state's step performs next is the reset input (R341). -/
def nextIsReset (s : State) : Prop := ∃ f rest, s.bus = .reset f :: rest

/-- `t` is reached from `s` by steps none of which performs the reset or CLRS (R44). -/
inductive UnclearedSteps (s : State) : State → Prop where
  | refl : UnclearedSteps s s
  | tail {t u : State} : UnclearedSteps s t → ¬nextIsReset t → ¬nextIsCommand t 0x0000000F#32 → step t = .next u →
      UnclearedSteps s u

/-- The event that a state's step performs next is a 32-bit write of `v` to a slot (R73). -/
def nextIsWrite (s : State) (slot : Slot) (v : Word) : Prop := ∃ rest, s.bus = .access (.write slot.offset 4 v) :: rest

end Sys2Proof.Machine
end

