-- ==== Sys2Proof/Certificates/Slice0/Obligations.lean ====
section
/-! DEFINITION. The statements about the model, for the provers. Each docstring names the rules of spec/ that a statement
formalises. Formulas are written out from the rules, not through the meanings' own helpers. -/

open Sys2Proof Sys2Proof.Machine

/-! ### Encoding and dispatch -/

/-- The opcode map (R101): each of the eleven command words decodes to its command, and a word whose OP is 0x7 or 0xA
to 0xE decodes to none. -/
def Obligations.WordsDecodeAsTheOpcodeMap : Prop :=
  decode 0x00000000#32 = .ok .nop ∧ decode 0x00000001#32 = .ok .encg ∧ decode 0x00000002#32 = .ok .enct1 ∧
  decode 0x00000003#32 = .ok .enct2 ∧ decode 0x00000004#32 = .ok .decg ∧ decode 0x00000014#32 = .ok .decgL ∧
  decode 0x00000005#32 = .ok .dect2 ∧ decode 0x00000006#32 = .ok .dect3 ∧ decode 0x00000008#32 = .ok .elen ∧
  decode 0x00000009#32 = .ok .dlen ∧ decode 0x0000000F#32 = .ok .clrs ∧
  ∀ w : Word, w.extractLsb' 0 4 ∈ [0x7#4, 0xA#4, 0xB#4, 0xC#4, 0xD#4, 0xE#4] → ∃ e, decode w = .error e

/-- Of all 2^32 words, exactly one decodes to each command: the one the encoder gives (R100, R101, R103, R106). -/
def Obligations.DecodeAcceptsExactlyTheEncodings : Prop :=
  ∀ (w : Word) (i : Instr), decode w = .ok i ↔ w = encode i

/-- R102: a word is legal exactly when its reserved bits are 0, its OP is in use and L = 1 stands with OP = 0x4 only;
writing a legal word to CMD runs the command it decodes to, and writing an illegal one reports ILLEGAL (6) with
`oob = 0` and changes nothing else. -/
def Obligations.LegalWordsRunAndIllegalWordsFail : Prop :=
  ∀ (w : Word) (s : State),
    ((w.extractLsb' 5 27 = 0#27 ∧
        w.extractLsb' 0 4 ∈ [0x0#4, 0x1#4, 0x2#4, 0x3#4, 0x4#4, 0x5#4, 0x6#4, 0x8#4, 0x9#4, 0xF#4] ∧
        (w.getLsbD 4 = false ∨ w.extractLsb' 0 4 = 0x4#4)) →
      ∃ i, decode w = .ok i ∧ step (enqueueFirst (commandEvent w) s) = exec i s) ∧
    (¬(w.extractLsb' 5 27 = 0#27 ∧
        w.extractLsb' 0 4 ∈ [0x0#4, 0x1#4, 0x2#4, 0x3#4, 0x4#4, 0x5#4, 0x6#4, 0x8#4, 0x9#4, 0xF#4] ∧
        (w.getLsbD 4 = false ∨ w.extractLsb' 0 4 = 0x4#4)) →
      ∃ t, step (enqueueFirst (commandEvent w) s) = .next t ∧ FailedWith s t 6 false)

/-- A step whose next event is a host write to CMD of a word that decodes to a command is that command on the state from
whose bus the write is taken; nothing else is added around it (R28, R103). -/
def Obligations.StepRunsTheDecodedCommand : Prop :=
  ∀ (s : State) (rest : List BusEvent) (w : Word) (i : Instr),
    s.bus = .access (.write 0x08#5 4 w) :: rest → decode w = .ok i → step s = exec i { s with bus := rest }

/-- The model's choice of where a command comes from (notes/assumptions/1.md): the word that `withFetchWord` places is
what the very next step runs, on the state it was placed in. -/
def Obligations.PlacedWordRunsNext : Prop :=
  ∀ (s : State) (w : Nat) (i : Instr), decodeTableWord 32 w = some i → step (s.withFetchWord 32 w) = exec i s

/-! ### Reset, idle and the register window -/

/-- R340: the registers after reset, in the reset state and after every reset event. -/
def Obligations.ResetLeavesTheStatedRegisters : Prop :=
  (State.reset.ctrl = 0x00000001#32 ∧ State.reset.alpha = 0x003D2F2B#32 ∧ State.reset.din = 0 ∧ State.reset.dout = 0 ∧
    State.reset.status = 0) ∧
  ∀ (s : State) (f : Option HostAccess), ∃ t, step (enqueueFirst (.reset f) s) = .next t ∧
    padEn t.ctrl = true ∧ strict t.ctrl = false ∧ t.ctrl &&& ~~~0x00000003#32 = 0 ∧
    sym62 t.alpha = 0x2B#7 ∧ sym63 t.alpha = 0x2F#7 ∧ padch t.alpha = 0x3D#7 ∧ t.alpha &&& ~~~0x007F7F7F#32 = 0 ∧
    t.din = 0 ∧ t.dout = 0 ∧ t.status = 0

/-- R341: a reset is performed between accesses. A write in flight leaves nothing behind, and a read in flight returns
one value that nothing constrains (notes/assumptions/4.md). Two clauses are the model's choice: that the accesses that
come later are kept (notes/assumptions/6.md), and that an access in flight that R75 does not admit is treated like the
others (notes/assumptions/17.md). -/
def Obligations.ResetActsBetweenAccesses : Prop :=
  ∀ (s : State) (f : Option HostAccess), ∃ t, step (enqueueFirst (.reset f) s) = .next t ∧ t.bus = s.bus ∧
    t.ctrl = State.reset.ctrl ∧ t.alpha = State.reset.alpha ∧ t.din = State.reset.din ∧ t.dout = State.reset.dout ∧
    t.status = State.reset.status ∧
    (f = none → t.reads = s.reads) ∧
    (∀ off width v, f = some (.write off width v) → t.reads = s.reads) ∧
    ∀ off width, f = some (.read off width) → ∃ v, t.reads = v :: s.reads

/-- R72: a 32-bit host read at `BASE + off`, `off` a multiple of 4 up to 0x1C, returns the register at `off` (CMD and
the reserved slots read 0) and changes no register; no other read is admitted. That the returned value is kept in the
list `reads` is the model's choice (notes/assumptions/2.md). -/
def Obligations.HostReadReturnsTheRegister : Prop :=
  (∀ (s : State) (off : Nat), off % 4 = 0 → off ≤ 0x1C → ∃ e, readEvent (Config.base + off) 4 = some e ∧
    step (enqueueFirst e s) = .next { s with reads :=
      (if off = 0x00 then s.ctrl else if off = 0x04 then s.alpha else if off = 0x0C then s.din
       else if off = 0x10 then s.dout else if off = 0x14 then s.status else 0) :: s.reads }) ∧
  ∀ (s t : State) (addr width : Nat) (e : BusEvent), readEvent addr width = some e →
    step (enqueueFirst e s) = .next t → width = 4 ∧ ∃ off, addr = Config.base + off ∧ off % 4 = 0 ∧ off ≤ 0x1C

/-- R73: a 32-bit host write at `BASE + off`, `off` a multiple of 4 up to 0x1C, writes CTRL and ALPHA under their masks
and DIN whole, performs a command at CMD and has no effect elsewhere; no other write is admitted. -/
def Obligations.HostWriteUpdatesTheRegister : Prop :=
  (∀ (s : State) (v : Word) (off : Nat), off % 4 = 0 → off ≤ 0x1C → ∃ e, writeEvent (Config.base + off) 4 v = some e ∧
    step (enqueueFirst e s) =
      (if off = 0x00 then .next { s with ctrl := v &&& 0x00000003#32 }
       else if off = 0x04 then .next { s with alpha := v &&& 0x007F7F7F#32 }
       else if off = 0x08 then performCommand v s
       else if off = 0x0C then .next { s with din := v }
       else .next s)) ∧
  ∀ (s t : State) (addr width : Nat) (v : Word) (e : BusEvent), writeEvent addr width v = some e →
    step (enqueueFirst e s) = .next t → width = 4 ∧ ∃ off, addr = Config.base + off ∧ off % 4 = 0 ∧ off ≤ 0x1C

/-- R75: an access to the window of another width than 32 bits, or at an offset that is no multiple of 4, is refused; an
access outside the window is no access to the block. That an access is outside where its first byte is, though it may
reach into the window from below, is the model's choice (notes/assumptions/16.md). -/
def Obligations.UnsupportedAccessesAreRefused : Prop :=
  (∀ (s : State) (off : Offset) (width : Nat), width ≠ 4 ∨ off.toNat % 4 ≠ 0 →
    step (enqueueFirst (.access (.read off width)) s) = .refused (.unsupportedBusAccess (.read off width)) ∧
    ∀ v, step (enqueueFirst (.access (.write off width v)) s) =
      .refused (.unsupportedBusAccess (.write off width v))) ∧
  ∀ (addr width : Nat) (v : Word), addr < Config.base ∨ Config.base + 32 ≤ addr →
    readEvent addr width = none ∧ writeEvent addr width v = none

/-- R20, R325: a block that no access has reached does not act. That an idle step answers the same state is the model's
choice (notes/assumptions/3.md). -/
def Obligations.IdleBlockKeepsEverything : Prop := ∀ s : State, s.bus = [] → step s = .next s

/-- No state makes the block stop: a step answers a next state, or it refuses an access to the window that is not a
32-bit access at a multiple of 4 (R75, R302, R306, R307). -/
def Obligations.OnlyUnsupportedAccessesStop : Prop :=
  ∀ s : State, (∃ t, step s = .next t) ∨
    ∃ a rest, s.bus = .access a :: rest ∧ step s = .refused (.unsupportedBusAccess a) ∧
      ((∃ off width, a = .read off width ∧ (width ≠ 4 ∨ off.toNat % 4 ≠ 0)) ∨
        ∃ off width v, a = .write off width v ∧ (width ≠ 4 ∨ off.toNat % 4 ≠ 0))

/-! ### The commands: when each completes, what it leaves, and its frame -/

/-- R131, R130: in every state ENCG completes with the four symbols of lanes 0 to 2 of DIN, COUNT 4 and no OOB. -/
def Obligations.EncgEncodesTheGroup : Prop :=
  decode 0x00000001#32 = .ok .encg ∧ ∀ s : State,
    let b (k : Nat) : Nat := (lane s.din k).toNat
    let sym (i : Nat) : Byte := (encodeTable s.alpha (BitVec.ofNat 6 i)).setWidth 8
    ∃ t, exec .encg s = .next t ∧
      CompletedWith s t
        (word (sym (b 0 >>> 2)) (sym (((b 0 <<< 4) &&& 0x3F) ||| (b 1 >>> 4)))
          (sym (((b 1 <<< 2) &&& 0x3F) ||| (b 2 >>> 6))) (sym (b 2 &&& 0x3F))) 4 false

/-- R161: in every state ENCT1 completes with two symbols of lane 0 of DIN; in padded mode two padding symbols follow
and COUNT is 4, in unpadded mode COUNT is 2. -/
def Obligations.EnctOneEncodesAOneByteTail : Prop :=
  decode 0x00000002#32 = .ok .enct1 ∧ ∀ s : State,
    let b (k : Nat) : Nat := (lane s.din k).toNat
    let sym (i : Nat) : Byte := (encodeTable s.alpha (BitVec.ofNat 6 i)).setWidth 8
    let p : Byte := (padch s.alpha).setWidth 8
    (padEn s.ctrl = true → ∃ t, exec .enct1 s = .next t ∧
      CompletedWith s t (word (sym (b 0 >>> 2)) (sym ((b 0 <<< 4) &&& 0x3F)) p p) 4 false) ∧
    (padEn s.ctrl = false → ∃ t, exec .enct1 s = .next t ∧
      CompletedWith s t (word (sym (b 0 >>> 2)) (sym ((b 0 <<< 4) &&& 0x3F)) 0 0) 2 false)

/-- R162: in every state ENCT2 completes with three symbols of lanes 0 and 1 of DIN; in padded mode one padding symbol
follows and COUNT is 4, in unpadded mode COUNT is 3. -/
def Obligations.EnctTwoEncodesATwoByteTail : Prop :=
  decode 0x00000003#32 = .ok .enct2 ∧ ∀ s : State,
    let b (k : Nat) : Nat := (lane s.din k).toNat
    let sym (i : Nat) : Byte := (encodeTable s.alpha (BitVec.ofNat 6 i)).setWidth 8
    let p : Byte := (padch s.alpha).setWidth 8
    (padEn s.ctrl = true → ∃ t, exec .enct2 s = .next t ∧
      CompletedWith s t (word (sym (b 0 >>> 2)) (sym (((b 0 <<< 4) ||| (b 1 >>> 4)) &&& 0x3F))
        (sym ((b 1 <<< 2) &&& 0x3F)) p) 4 false) ∧
    (padEn s.ctrl = false → ∃ t, exec .enct2 s = .next t ∧
      CompletedWith s t (word (sym (b 0 >>> 2)) (sym (((b 0 <<< 4) ||| (b 1 >>> 4)) &&& 0x3F))
        (sym ((b 1 <<< 2) &&& 0x3F)) 0) 3 false)

/-- R164, R160: ELEN completes with `target_length` of DIN where it fits 32 bits, and fails with RANGE (5) otherwise,
which is exactly from 0xBFFFFFFE on in padded mode and from 0xC0000000 on in unpadded mode. -/
def Obligations.ElenGivesTheTargetLength : Prop :=
  decode 0x00000008#32 = .ok .elen ∧ ∀ s : State,
    let n : Nat := s.din.toNat
    let tail : Nat :=
      if n % 3 = 0 then 0 else if padEn s.ctrl then 4 else if n % 3 = 1 then 2 else 3
    let target : Nat := (n / 3) * 4 + tail
    (target ≤ 0xFFFFFFFF → ∃ t, exec .elen s = .next t ∧ CompletedWith s t (BitVec.ofNat 32 target) 0 false ∧
      t.dout.toNat = target) ∧
    (0xFFFFFFFF < target → ∃ t, exec .elen s = .next t ∧ FailedWith s t 5 false) ∧
    (0xFFFFFFFF < target ↔
      (padEn s.ctrl = true ∧ 0xBFFFFFFE ≤ n) ∨ (padEn s.ctrl = false ∧ 0xC0000000 ≤ n))

/-- R226, R222, R224: DECG completes with the three bytes of its four symbols where none is padding and, in strict
mode, none is OOB; otherwise it fails with PADDING (3) before SYMBOL (4). -/
def Obligations.DecgDecodesAFullGroup : Prop :=
  decode 0x00000004#32 = .ok .decg ∧ ∀ s : State,
    let v := operandValue s
    let oob := operandOob s 4
    let noPad : Prop := ∀ k < 4, operandIsPad s k = false
    (noPad → strict s.ctrl = false ∨ oob = false → ∃ t, exec .decg s = .next t ∧
      CompletedWith s t (word (BitVec.ofNat 8 (((v 0 <<< 2) ||| (v 1 >>> 4)) &&& 0xFF))
        (BitVec.ofNat 8 (((v 1 <<< 4) ||| (v 2 >>> 2)) &&& 0xFF))
        (BitVec.ofNat 8 (((v 2 <<< 6) ||| v 3) &&& 0xFF)) 0) 3 oob) ∧
    (noPad → strict s.ctrl = true → oob = true → ∃ t, exec .decg s = .next t ∧ FailedWith s t 4 true) ∧
    (¬noPad → ∃ t, exec .decg s = .next t ∧ FailedWith s t 3 oob)

/-- R227, R222, R223, R224: DECG.L completes with 3, 2 or 1 bytes where the padding is none, the last symbol or the last
two (the values of the padding being 0) and, in strict mode, no symbol is OOB; any other padding fails with PADDING
(3), and an OOB symbol in strict mode with SYMBOL (4). -/
def Obligations.DecgLDecodesTheFinalGroup : Prop :=
  decode 0x00000014#32 = .ok .decgL ∧ ∀ s : State,
    let v := operandValue s
    let p := operandIsPad s
    let oob := operandOob s 4
    let pattern (p2 p3 : Bool) : Prop := p 0 = false ∧ p 1 = false ∧ p 2 = p2 ∧ p 3 = p3
    let passes : Prop := strict s.ctrl = false ∨ oob = false
    let first : Byte := BitVec.ofNat 8 (((v 0 <<< 2) ||| (v 1 >>> 4)) &&& 0xFF)
    (pattern false false → passes → ∃ t, exec .decgL s = .next t ∧
      CompletedWith s t (word first (BitVec.ofNat 8 (((v 1 <<< 4) ||| (v 2 >>> 2)) &&& 0xFF))
        (BitVec.ofNat 8 (((v 2 <<< 6) ||| v 3) &&& 0xFF)) 0) 3 oob) ∧
    (pattern false true → passes → ∃ t, exec .decgL s = .next t ∧
      CompletedWith s t (word first (BitVec.ofNat 8 (((v 1 <<< 4) ||| (v 2 >>> 2)) &&& 0xFF)) 0 0) 2 oob) ∧
    (pattern true true → passes → ∃ t, exec .decgL s = .next t ∧ CompletedWith s t (word first 0 0 0) 1 oob) ∧
    (pattern false false ∨ pattern false true ∨ pattern true true → ¬passes →
      ∃ t, exec .decgL s = .next t ∧ FailedWith s t 4 true) ∧
    (¬(pattern false false ∨ pattern false true ∨ pattern true true) →
      ∃ t, exec .decgL s = .next t ∧ FailedWith s t 3 oob)

/-- R228: DECT2 completes with one byte in unpadded mode, unless strict mode meets an OOB symbol (SYMBOL, 4); in padded
mode it fails with LENGTH (2). -/
def Obligations.DectTwoDecodesATwoSymbolTail : Prop :=
  decode 0x00000005#32 = .ok .dect2 ∧ ∀ s : State,
    let v := operandValue s
    let oob := operandOob s 2
    (padEn s.ctrl = false → strict s.ctrl = false ∨ oob = false → ∃ t, exec .dect2 s = .next t ∧
      CompletedWith s t (word (BitVec.ofNat 8 (((v 0 <<< 2) ||| (v 1 >>> 4)) &&& 0xFF)) 0 0 0) 1 oob) ∧
    (padEn s.ctrl = false → strict s.ctrl = true → oob = true →
      ∃ t, exec .dect2 s = .next t ∧ FailedWith s t 4 true) ∧
    (padEn s.ctrl = true → ∃ t, exec .dect2 s = .next t ∧ FailedWith s t 2 oob)

/-- R229: DECT3 completes with two bytes in unpadded mode, unless strict mode meets an OOB symbol (SYMBOL, 4); in padded
mode it fails with LENGTH (2). -/
def Obligations.DectThreeDecodesAThreeSymbolTail : Prop :=
  decode 0x00000006#32 = .ok .dect3 ∧ ∀ s : State,
    let v := operandValue s
    let oob := operandOob s 3
    (padEn s.ctrl = false → strict s.ctrl = false ∨ oob = false → ∃ t, exec .dect3 s = .next t ∧
      CompletedWith s t (word (BitVec.ofNat 8 (((v 0 <<< 2) ||| (v 1 >>> 4)) &&& 0xFF))
        (BitVec.ofNat 8 (((v 1 <<< 4) ||| (v 2 >>> 2)) &&& 0xFF)) 0 0) 2 oob) ∧
    (padEn s.ctrl = false → strict s.ctrl = true → oob = true →
      ∃ t, exec .dect3 s = .next t ∧ FailedWith s t 4 true) ∧
    (padEn s.ctrl = true → ∃ t, exec .dect3 s = .next t ∧ FailedWith s t 2 oob)

/-- R230: DLEN fails with EMPTY (1) on 0 and with LENGTH (2) on a length that no encode has; otherwise it completes with
the output length, which needs no more than 32 bits. -/
def Obligations.DlenChecksTheLength : Prop :=
  decode 0x00000009#32 = .ok .dlen ∧ ∀ s : State,
    let n : Nat := s.din.toNat
    (n = 0 → ∃ t, exec .dlen s = .next t ∧ FailedWith s t 1 false) ∧
    (n ≠ 0 → padEn s.ctrl = true → n % 4 ≠ 0 → ∃ t, exec .dlen s = .next t ∧ FailedWith s t 2 false) ∧
    (n ≠ 0 → padEn s.ctrl = true → n % 4 = 0 → ∃ t, exec .dlen s = .next t ∧
      CompletedWith s t (BitVec.ofNat 32 ((n / 4) * 3)) 0 false ∧ t.dout.toNat = (n / 4) * 3) ∧
    (padEn s.ctrl = false → n % 4 = 1 → ∃ t, exec .dlen s = .next t ∧ FailedWith s t 2 false) ∧
    (n ≠ 0 → padEn s.ctrl = false → n % 4 ≠ 1 →
      let extra : Nat := if n % 4 = 2 then 1 else if n % 4 = 3 then 2 else 0
      ∃ t, exec .dlen s = .next t ∧ CompletedWith s t (BitVec.ofNat 32 ((n / 4) * 3 + extra)) 0 false ∧
        t.dout.toNat = (n / 4) * 3 + extra)

/-- R270: in every state NOP completes and no register changes; a word with OP = 0x0 and any other bit set is no
command. -/
def Obligations.NopChangesNothing : Prop :=
  decode 0x00000000#32 = .ok .nop ∧ (∀ s : State, exec .nop s = .next s) ∧
    ∀ w : Word, w.extractLsb' 0 4 = 0x0#4 → w ≠ 0 → ∃ e, decode w = .error e

/-- R271, R44: in every state CLRS completes with every STATUS field 0 and every other register unchanged; no other
command of the opcode map clears a sticky field (`StickyFieldsLastUntilCleared` says it of every step). -/
def Obligations.ClrsClearsStatusOnly : Prop :=
  decode 0x0000000F#32 = .ok .clrs ∧
    (∀ s : State, ∃ t, exec .clrs s = .next t ∧ t.status = 0 ∧ t.dout = s.dout ∧ SameBesidesResult s t ∧
      statusCount t.status = 0 ∧ statusErr t.status = false ∧ statusCause t.status = 0 ∧ statusOob t.status = false ∧
      statusSerr t.status = false ∧ statusSoob t.status = false ∧ statusFcause t.status = 0) ∧
    ∀ (i : Instr) (s : State), i ≠ .clrs → ∃ t, exec i s = .next t ∧
      (statusSerr s.status = true → statusSerr t.status = true ∧ statusFcause t.status = statusFcause s.status) ∧
      (statusSoob s.status = true → statusSoob t.status = true)

/-- The frame of every command (R24, R134, R302): it answers a next state in which CTRL, ALPHA and DIN are unchanged,
and so is everything that is not DOUT or STATUS; the reserved bits of STATUS too, but for CLRS, which writes the whole
register. -/
def Obligations.CommandsChangeOnlyDoutAndStatus : Prop :=
  ∀ (i : Instr) (s : State), ∃ t, exec i s = .next t ∧ SameBesidesResult s t ∧ (i ≠ .clrs → SameStatusReserved s t)

/-! ### Tables -/

/-- R30, R31: the encode table is `A` to `Z`, `a` to `z`, `0` to `9`, ALPHA.SYM62 and ALPHA.SYM63. -/
def Obligations.EncodeTableIsTheAlphabet : Prop :=
  ∀ (alpha : Word) (i : Index),
    (i.toNat ≤ 25 → (encodeTable alpha i).toNat = 0x41 + i.toNat) ∧
    (26 ≤ i.toNat → i.toNat ≤ 51 → (encodeTable alpha i).toNat = 0x61 + (i.toNat - 26)) ∧
    (52 ≤ i.toNat → i.toNat ≤ 61 → (encodeTable alpha i).toNat = 0x30 + (i.toNat - 52)) ∧
    (i.toNat = 62 → encodeTable alpha i = alpha.extractLsb' 0 7) ∧
    (i.toNat = 63 → encodeTable alpha i = alpha.extractLsb' 8 7)

/-- R32: a byte is in the alphabet exactly when some index carries it, and a byte from 0x80 on never is. -/
def Obligations.AlphabetHoldsTheTableSymbols : Prop :=
  ∀ (alpha : Word) (c : Byte),
    (inAlphabet alpha c = true ↔ ∃ i : Index, (encodeTable alpha i).setWidth 8 = c) ∧
    (0x80 ≤ c.toNat → inAlphabet alpha c = false)

/-- R33: the decode value of an alphabet byte is the highest index that carries it; of any other byte it is 0. -/
def Obligations.DecodeValueIsTheHighestIndex : Prop :=
  ∀ (alpha : Word) (c : Byte),
    (inAlphabet alpha c = true →
      (encodeTable alpha (decodeValue alpha c)).setWidth 8 = c ∧
      ∀ i : Index, (encodeTable alpha i).setWidth 8 = c → i.toNat ≤ (decodeValue alpha c).toNat) ∧
    (inAlphabet alpha c = false → decodeValue alpha c = 0)

/-- R34, R43, R220: padding is recognised in padded mode only and before the alphabet; a set of symbols is OOB exactly
when one of them is neither padding nor in the alphabet. -/
def Obligations.PaddingIsTestedBeforeTheAlphabet : Prop :=
  ∀ (ctrl alpha : Word) (c : Byte) (cs : List Byte),
    (isPad ctrl alpha c = true ↔ ctrl.getLsbD 0 = true ∧ c = (alpha.extractLsb' 16 7).setWidth 8) ∧
    (classify ctrl alpha c = .padding ↔ isPad ctrl alpha c = true) ∧
    (classify ctrl alpha c = .alphabet ↔ isPad ctrl alpha c = false ∧ inAlphabet alpha c = true) ∧
    (classify ctrl alpha c = .oob ↔ isPad ctrl alpha c = false ∧ inAlphabet alpha c = false) ∧
    (anyOob ctrl alpha cs = true ↔ ∃ c ∈ cs, classify ctrl alpha c = .oob)

/-- R38: under a well-formed configuration the decode table inverts the encode table at every index. -/
def Obligations.DecodeTableInvertsEncodeTable : Prop :=
  ∀ (ctrl alpha : Word), WellFormedConfig ctrl alpha →
    ∀ i : Index, decodeValue alpha ((encodeTable alpha i).setWidth 8) = i

/-! ### Equivalent forms of the encoder -/

/-- R132, R78: the four indices of a group are its 24 bits cut into four, the most significant first. -/
def Obligations.BitSliceEqualsScalarReference : Prop :=
  ∀ b0 b1 b2 : Byte,
    scalarIndices b0 b1 b2 = [(sliceIndex b0 b1 b2 0).toNat, (sliceIndex b0 b1 b2 1).toNat,
      (sliceIndex b0 b1 b2 2).toNat, (sliceIndex b0 b1 b2 3).toNat]

/-- R135: the byte-lane spread-and-scale strategy with the corrected constants gives 8-bit intermediates whose low six
bits are the indices of the scalar reference; so does a lookup in the replicated table (R35). -/
def Obligations.SpreadAndScaleEqualsScalarReference : Prop :=
  ∀ b0 b1 b2 : Byte,
    (spreadLanes b0 b1 b2).map (· &&& 0x3F) = scalarIndices b0 b1 b2 ∧
    (∀ x ∈ spreadLanes b0 b1 b2, x ≤ 255) ∧
    ∀ alpha : Word, (spreadLanes b0 b1 b2).map (fun x => replicatedTable alpha (BitVec.ofNat 8 x)) =
      (scalarIndices b0 b1 b2).map fun i => encodeTable alpha (BitVec.ofNat 6 i)

/-- R136: the int-lane mask-and-OR strategy gives index 0 in the most significant byte and index 3 in the least. -/
def Obligations.MaskedProductsEqualScalarReference : Prop :=
  ∀ b0 b1 b2 : Byte,
    [((maskedProducts (rearranged b0 b1 b2)).extractLsb' 24 8).toNat,
      ((maskedProducts (rearranged b0 b1 b2)).extractLsb' 16 8).toNat,
      ((maskedProducts (rearranged b0 b1 b2)).extractLsb' 8 8).toNat,
      ((maskedProducts (rearranged b0 b1 b2)).extractLsb' 0 8).toNat] = scalarIndices b0 b1 b2

/-- The corner cases of R161 and R162: the symbols of a tail are the first ones of ENCG on the tail's bytes followed by
zero bytes, and the last index of a tail holds the tail's last bits only. -/
def Obligations.TailSymbolsAreTheGroupsFirst : Prop :=
  ∀ (s : State) (b0 b1 : Byte),
    (∃ t g, exec .enct1 { s with din := word b0 0 0 0 } = .next t ∧ exec .encg { s with din := word b0 0 0 0 } = .next g ∧
      lane t.dout 0 = lane g.dout 0 ∧ lane t.dout 1 = lane g.dout 1 ∧
      ∃ i ∈ [0, 16, 32, 48], lane t.dout 1 = (encodeTable s.alpha (BitVec.ofNat 6 i)).setWidth 8) ∧
    ∃ t g, exec .enct2 { s with din := word b0 b1 0 0 } = .next t ∧
      exec .encg { s with din := word b0 b1 0 0 } = .next g ∧
      lane t.dout 0 = lane g.dout 0 ∧ lane t.dout 1 = lane g.dout 1 ∧ lane t.dout 2 = lane g.dout 2 ∧
      ∃ i, i % 4 = 0 ∧ i < 64 ∧ lane t.dout 2 = (encodeTable s.alpha (BitVec.ofNat 6 i)).setWidth 8

/-! ### Corner cases of the decoder -/

/-- R227, 92 D18: in unpadded mode DECG.L is exactly DECG, and both answer a next state. -/
def Obligations.DecgLIsDecgInUnpaddedMode : Prop :=
  ∀ s : State, padEn s.ctrl = false → exec .decgL s = exec .decg s ∧ ∃ t, exec .decg s = .next t

/-- R225: the left-over low bits of the last value are discarded without a check. Two 2-symbol tails whose second
values agree above the low 4 bits, or two 3-symbol tails whose third values agree above the low 2 bits, leave the same
state but for DIN, which stays as it was written; in padded mode the same holds of a final group with two padding
symbols, or with one. -/
def Obligations.DiscardedBitsAreNotChecked : Prop :=
  ∀ (s : State) (c0 c1 c2 d1 d2 : Byte),
    let v (c : Byte) : Nat := (decodeValue s.alpha c).toNat
    let leavesTheSame (i : Instr) (x y : Word) : Prop :=
      ∃ t u, exec i { s with din := x } = .next t ∧ exec i { s with din := y } = .next u ∧
        t.din = x ∧ u = { t with din := y }
    (∀ c ∈ [c0, c1, c2, d1, d2], inAlphabet s.alpha c = true ∧ isPad s.ctrl s.alpha c = false) →
      (v c1 / 16 = v d1 / 16 →
        leavesTheSame .dect2 (word c0 c1 0 0) (word c0 d1 0 0) ∧
        (padEn s.ctrl = true → leavesTheSame .decgL (word c0 c1 (padByte s.alpha) (padByte s.alpha))
          (word c0 d1 (padByte s.alpha) (padByte s.alpha)))) ∧
      (v c2 / 4 = v d2 / 4 →
        leavesTheSame .dect3 (word c0 c1 c2 0) (word c0 c1 d2 0) ∧
        (padEn s.ctrl = true →
          leavesTheSame .decgL (word c0 c1 c2 (padByte s.alpha)) (word c0 c1 d2 (padByte s.alpha))))

/-! ### Whole-machine rules -/

/-- R46: no command's result depends on STATUS. Two states that agree on CTRL, ALPHA, DIN and DOUT leave the same DOUT
after any command, and the same COUNT, ERR, CAUSE and OOB after any command but NOP. -/
def Obligations.ResultsDoNotDependOnStatus : Prop :=
  ∀ (i : Instr) (s s' : State), s.ctrl = s'.ctrl → s.alpha = s'.alpha → s.din = s'.din → s.dout = s'.dout →
    ∃ t t', exec i s = .next t ∧ exec i s' = .next t' ∧ t.dout = t'.dout ∧
      (i ≠ .nop → statusCount t.status = statusCount t'.status ∧ statusErr t.status = statusErr t'.status ∧
        statusCause t.status = statusCause t'.status ∧ statusOob t.status = statusOob t'.status)

/-- R104: the lanes of DIN that a command does not read never affect its result, its flags or its error. -/
def Obligations.IgnoredLanesHaveNoEffect : Prop :=
  ∀ (i : Instr) (ks : List Nat),
    (i, ks) ∈ [(Instr.encg, [0, 1, 2]), (.enct1, [0]), (.enct2, [0, 1]), (.dect2, [0, 1]), (.dect3, [0, 1, 2]),
      (.nop, []), (.clrs, [])] →
    ∀ (s : State) (d : Word), (∀ k ∈ ks, lane s.din k = lane d k) →
      ∃ t u, exec i s = .next t ∧ exec i { s with din := d } = .next u ∧ t.dout = u.dout ∧ t.status = u.status

/-- R44: SERR, SOOB and FCAUSE accumulate. A step in which one of SERR and SOOB is lost, or in which FCAUSE changes
while SERR is set, is a reset or a CLRS. -/
def Obligations.StickyFieldsLastUntilCleared : Prop :=
  ∀ s t : State, step s = .next t → ¬nextIsReset s → ¬nextIsCommand s 0x0000000F#32 →
    (statusSerr s.status = true → statusSerr t.status = true ∧ statusFcause t.status = statusFcause s.status) ∧
    (statusSoob s.status = true → statusSoob t.status = true)

/-- R307: a second failure before a CLRS, however many steps after the first, leaves SERR set and FCAUSE at the first
cause, and OOB accumulates in SOOB; the first failure writes FCAUSE with its own cause. The two are commands other than
NOP, legal or not, that end with ERR set; no step between them performs CLRS or the reset. -/
def Obligations.SecondFailureKeepsTheFirstCause : Prop :=
  ∀ (s t v u : State) (w x : Word), w ≠ 0 → x ≠ 0 → statusSerr s.status = false →
    step (enqueueFirst (commandEvent w) s) = .next t → statusErr t.status = true → UnclearedSteps t v →
    step (enqueueFirst (commandEvent x) v) = .next u → statusErr u.status = true →
      statusSerr t.status = true ∧ statusFcause t.status = statusCause t.status ∧
      statusSerr u.status = true ∧ statusFcause u.status = statusCause t.status ∧
      statusSoob u.status = (statusSoob v.status || statusOob u.status) ∧
      (statusSoob t.status = true → statusSoob u.status = true)

/-- R26, R27: DOUT and STATUS change only in a step that performs a command or the reset. -/
def Obligations.OnlyCommandsAndResetWriteResults : Prop :=
  ∀ s t : State, step s = .next t → (t.dout ≠ s.dout ∨ t.status ≠ s.status) →
    nextIsReset s ∨ ∃ w, nextIsCommand s w

/-- R22, R23, R24, R73: CTRL, ALPHA and DIN change only in a step that performs a host write of that register, with the
value the write mask leaves, or the reset. -/
def Obligations.OnlyHostWritesAndResetChangeOperands : Prop :=
  ∀ s t : State, step s = .next t → ¬nextIsReset s →
    (t.ctrl ≠ s.ctrl → ∃ v, nextIsWrite s .ctrl v ∧ t.ctrl = v &&& 0x00000003#32) ∧
    (t.alpha ≠ s.alpha → ∃ v, nextIsWrite s .alpha v ∧ t.alpha = v &&& 0x007F7F7F#32) ∧
    (t.din ≠ s.din → ∃ v, nextIsWrite s .din v ∧ t.din = v)

/-- R77: a command repeated with unchanged DIN, CTRL and ALPHA leaves the state the first one left. -/
def Obligations.RepeatedCommandRepeatsTheState : Prop :=
  ∀ (i : Instr) (s : State), ∃ t, exec i s = .next t ∧ exec i t = .next t

/-- The register invariant is kept by every step, whatever reaches the block (R22, R23, R27, R45, R300, 93 I12). -/
def Obligations.StepKeepsRegistersLegal : Prop :=
  ∀ s t : State, RegistersLegal s → step s = .next t → RegistersLegal t

/-- The register invariant holds after reset (R340). -/
def Obligations.ResetRegistersAreLegal : Prop := RegistersLegal State.reset

/-! ### Round trip of one group -/

/-- R38, R222, R130: under a well-formed configuration DECG on the symbols ENCG gave returns the three bytes, in either
padding mode and whether decode is strict or not. -/
def Obligations.DecgUndoesEncg : Prop :=
  ∀ s : State, WellFormedConfig s.ctrl s.alpha →
    ∃ t u, exec .encg s = .next t ∧ exec .decg { t with din := t.dout } = .next u ∧
      u.dout = word (lane s.din 0) (lane s.din 1) (lane s.din 2) 0 ∧ statusCount u.status = 3 ∧
      statusErr u.status = false ∧ statusOob u.status = false

/-- R223, R225, R161, R162: under a well-formed configuration the decode command of the mode on the symbols of a tail
returns its one or two bytes. -/
def Obligations.TailDecodeUndoesTailEncode : Prop :=
  ∀ s : State, WellFormedConfig s.ctrl s.alpha →
    let one : Instr := if padEn s.ctrl then .decgL else .dect2
    let two : Instr := if padEn s.ctrl then .decgL else .dect3
    (∃ t u, exec .enct1 s = .next t ∧ exec one { t with din := t.dout } = .next u ∧
      u.dout = word (lane s.din 0) 0 0 0 ∧ statusCount u.status = 1 ∧ statusErr u.status = false ∧
      statusOob u.status = false) ∧
    ∃ t u, exec .enct2 s = .next t ∧ exec two { t with din := t.dout } = .next u ∧
      u.dout = word (lane s.din 0) (lane s.din 1) 0 0 ∧ statusCount u.status = 2 ∧ statusErr u.status = false ∧
      statusOob u.status = false

/-! ### Whole inputs -/

/-- R191: the length of a whole encode is `target_length` of the length of its input, in either mode; and the host
procedure always ends with an output. -/
def Obligations.EncodeLengthIsTheTargetLength : Prop :=
  ∀ (bytes : List Byte) (s : State), ∃ out t, encodeAll bytes s = .next (out, t) ∧
    out.length = (bytes.length / 3) * 4 +
      (if bytes.length % 3 = 0 then 0 else if padEn s.ctrl then 4 else if bytes.length % 3 = 1 then 2 else 3)

/-- R165: under a well-formed configuration a whole encode in padded mode ends with two padding symbols, one or none as
the input's length leaves 1, 2 or 0 modulo 3, and holds no other; in unpadded mode it holds none. -/
def Obligations.EncodePlacesPaddingAtTheEnd : Prop :=
  ∀ (bytes : List Byte) (s : State), WellFormedConfig s.ctrl s.alpha →
    ∃ body k t, encodeAll bytes s = .next (body ++ List.replicate k (padByte s.alpha), t) ∧
      (∀ c ∈ body, isPad s.ctrl s.alpha c = false) ∧
      k = if padEn s.ctrl then (if bytes.length % 3 = 1 then 2 else if bytes.length % 3 = 2 then 1 else 0) else 0

/-- R166: with the same alphabet, the unpadded encode of an input is the padded one without its padding symbols. -/
def Obligations.UnpaddedEncodeDropsOnlyPadding : Prop :=
  ∀ (bytes : List Byte) (s s' : State), s.alpha = s'.alpha → padEn s.ctrl = false → padEn s'.ctrl = true →
    ∃ out k t t', encodeAll bytes s = .next (out, t) ∧
      encodeAll bytes s' = .next (out ++ List.replicate k (padByte s.alpha), t') ∧
      k = if bytes.length % 3 = 0 then 0 else 3 - bytes.length % 3

/-- R193: chunking is invisible. With a working buffer of at least 3 bytes the Chunked Driver on a byte source, whatever
the size of each fill, drives the block exactly as the whole encode does: the same output, of the length
`target_length` says, and the same state. That a fill moves at least one byte where one fits is the model's choice
(notes/assumptions/10.md). -/
def Obligations.ChunkedEncodeEqualsWholeEncode : Prop :=
  ∀ (cap : Nat) (more : Nat → Nat) (bytes : List Byte) (s : State), 3 ≤ cap →
    encodeChunked cap more bytes s = encodeAll bytes s ∧
    ∃ out t, encodeChunked cap more bytes s = .next (out, t) ∧ out.length = targetLength (padEn s.ctrl) bytes.length

/-- R194, R195: the same for a text source, whose characters no fill splits: with at least 6 bytes of buffer and
characters of at most 4 bytes each, the Chunked Driver gives the encode of the concatenated bytes, whatever the size of
each fill. That a text source is the list of its characters' bytes, and that a fill moves at least one character where
one fits, are the model's choice (notes/assumptions/10.md). -/
def Obligations.ChunkedTextEncodeEqualsWholeEncode : Prop :=
  ∀ (cap : Nat) (more : Nat → Nat) (chars : List (List Byte)) (s : State), 6 ≤ cap → (∀ u ∈ chars, u.length ≤ 4) →
    encodeUnits cap more chars s = encodeAll chars.flatten s ∧ ∃ out t, encodeUnits cap more chars s = .next (out, t)

/-- R195, 93 I14: with a buffer below 3 bytes, the Chunked Driver's loop sticks without an end exactly on the byte
sources that do not fit the buffer, whatever the size of each fill; on the others it gives the whole encode. The fault
as the form of `stuck`, and that a fill moves at least one byte where one fits, are the model's choice
(notes/assumptions/10.md). -/
def Obligations.SmallBufferMakesNoProgress : Prop :=
  ∀ (cap : Nat) (more : Nat → Nat) (bytes : List Byte) (s : State), cap < 3 →
    (cap < bytes.length → encodeChunked cap more bytes s = .fault .hostNoProgress) ∧
    (bytes.length ≤ cap → encodeChunked cap more bytes s = encodeAll bytes s)

/-- R240: a whole decode rejects a string exactly when it is empty, has a length no encode of the mode has, has a
padding symbol elsewhere than as the final one or two characters (padded mode), or has an OOB symbol (strict mode). The
string's length is a 32-bit operand of DLEN (notes/assumptions/8.md). -/
def Obligations.DecodeRejectsExactlyInvalidStrings : Prop :=
  ∀ (str : List Byte) (s : State), str.length < 2 ^ 32 →
    let pad := isPad s.ctrl s.alpha
    let invalid : Prop :=
      str = [] ∨
      (padEn s.ctrl = true ∧ str.length % 4 ≠ 0) ∨
      (padEn s.ctrl = true ∧ ¬∃ body k, k ≤ 2 ∧ (∀ c ∈ body, pad c = false) ∧
        str = body ++ List.replicate k (padByte s.alpha)) ∨
      (padEn s.ctrl = false ∧ str.length % 4 = 1) ∨
      (strict s.ctrl = true ∧ ∃ c ∈ str, pad c = false ∧ inAlphabet s.alpha c = false)
    (invalid → ∃ cause t, decodeAll str s = .next (.invalidEncoding cause, t)) ∧
    (¬invalid → ∃ out t, decodeAll str s = .next (.bytes out, t))

/-- R244: no byte of a frame leaves the host unless the frame ended with SERR = 0. -/
def Obligations.NoPartialDecodeIsExposed : Prop :=
  ∀ (str : List Byte) (s t : State) (out : List Byte), decodeAll str s = .next (.bytes out, t) →
    statusSerr t.status = false ∧ statusErr t.status = false

/-- R245, R197: under a well-formed configuration a whole decode of a whole encode gives the input back, in padded and in
unpadded mode, strict or not. The encoded length fits the 32-bit operand of DLEN (R197); the empty input's encode, the
empty string, does not decode. -/
def Obligations.DecodeUndoesEncode : Prop :=
  (∀ (bytes : List Byte) (s : State), WellFormedConfig s.ctrl s.alpha → bytes ≠ [] →
    targetLength (padEn s.ctrl) bytes.length < 2 ^ 32 →
    ∃ out t u, encodeAll bytes s = .next (out, t) ∧ decodeAll out t = .next (.bytes bytes, u)) ∧
  ∀ s : State, encodeAll [] s = .next ([], s) ∧ ∃ u, decodeAll [] s = .next (.invalidEncoding 1, u)

/-! ### Host programs -/

/-- R110: a line is one 32-bit access at `BASE` plus the offset that R21 gives its register; a command mnemonic is a
write of the word that R101 gives it to CMD. The list names every register of the assembler. -/
def Obligations.HostLinesAreSingleAccesses : Prop :=
  (∀ reg off, (reg, off) ∈ [(Reg.ctrl, 0x00), (.alpha, 0x04), (.cmd, 0x08), (.din, 0x0C), (.dout, 0x10),
      (.status, 0x14)] →
    ((HostLine.rd reg).address = Config.base + off ∧
      readEvent (HostLine.rd reg).address 4 = some (.access (HostLine.rd reg).access) ∧
      (HostLine.rd reg).access = .read (BitVec.ofNat 5 off) 4) ∧
    ∀ imm, (HostLine.wr reg imm).address = Config.base + off ∧
      writeEvent (HostLine.wr reg imm).address 4 imm = some (.access (HostLine.wr reg imm).access) ∧
      (HostLine.wr reg imm).access = .write (BitVec.ofNat 5 off) 4 imm) ∧
  (∀ reg : Reg, reg ∈ [.ctrl, .alpha, .cmd, .din, .dout, .status]) ∧
  (∀ i w, (i, w) ∈ [(Instr.nop, 0x00000000#32), (.encg, 0x00000001#32), (.enct1, 0x00000002#32), (.enct2, 0x00000003#32),
      (.decg, 0x00000004#32), (.decgL, 0x00000014#32), (.dect2, 0x00000005#32), (.dect3, 0x00000006#32),
      (.elen, 0x00000008#32), (.dlen, 0x00000009#32), (.clrs, 0x0000000F#32)] →
    (HostLine.command i).address = Config.base + 0x08 ∧
    writeEvent (HostLine.command i).address 4 w = some (.access (HostLine.command i).access) ∧
    (HostLine.command i).access = .write 0x08#5 4 w) ∧
  ∀ i : Instr, i ∈ [.nop, .encg, .enct1, .enct2, .decg, .decgL, .dect2, .dect3, .elen, .dlen, .clrs]

/-- R343: construction on three 7-bit characters writes the symbols to ALPHA and the mode to CTRL and changes no other
register; a character above 0x7F is refused. -/
def Obligations.ConstructSetsTheConfiguration : Prop :=
  ∀ (at62 at63 : Nat) (padding : Option Nat) (strictMode : Bool),
    (at62 ≤ 0x7F → at63 ≤ 0x7F → padding.getD 0 ≤ 0x7F → ∃ lines, construct at62 at63 padding strictMode = some lines ∧
      ∀ s : State, ∃ t, runLines lines s = .next ((), t) ∧ (sym62 t.alpha).toNat = at62 ∧ (sym63 t.alpha).toNat = at63 ∧
        (padch t.alpha).toNat = padding.getD 0 ∧ padEn t.ctrl = padding.isSome ∧ strict t.ctrl = strictMode ∧
        t.din = s.din ∧ t.dout = s.dout ∧ t.status = s.status ∧ t.bus = s.bus ∧ t.reads = s.reads) ∧
    (0x7F < at62 ∨ 0x7F < at63 ∨ 0x7F < padding.getD 0 → construct at62 at63 padding strictMode = none)
end

