-- ==== Sys2Proof/Laws/State.lean ====
section
/-! SUPPORT. One lemma for each field of the state under each update, so that no later proof unfolds one. -/

namespace Sys2Proof.Machine

@[simp] theorem complete_ctrl (r : Word) (n : BitVec 3) (o : Bool) (s : State) : (complete r n o s).ctrl = s.ctrl := rfl
@[simp] theorem complete_alpha (r : Word) (n : BitVec 3) (o : Bool) (s : State) : (complete r n o s).alpha = s.alpha := rfl
@[simp] theorem complete_din (r : Word) (n : BitVec 3) (o : Bool) (s : State) : (complete r n o s).din = s.din := rfl
@[simp] theorem complete_dout (r : Word) (n : BitVec 3) (o : Bool) (s : State) : (complete r n o s).dout = r := rfl
@[simp] theorem complete_status (r : Word) (n : BitVec 3) (o : Bool) (s : State) : (complete r n o s).status = statusComplete n o s.status := rfl
@[simp] theorem complete_bus (r : Word) (n : BitVec 3) (o : Bool) (s : State) : (complete r n o s).bus = s.bus := rfl
@[simp] theorem complete_reads (r : Word) (n : BitVec 3) (o : Bool) (s : State) : (complete r n o s).reads = s.reads := rfl
@[simp] theorem complete_freeReads (r : Word) (n : BitVec 3) (o : Bool) (s : State) : (complete r n o s).freeReads = s.freeReads := rfl

@[simp] theorem fail_ctrl (c : Cause) (o : Bool) (s : State) : (fail c o s).ctrl = s.ctrl := rfl
@[simp] theorem fail_alpha (c : Cause) (o : Bool) (s : State) : (fail c o s).alpha = s.alpha := rfl
@[simp] theorem fail_din (c : Cause) (o : Bool) (s : State) : (fail c o s).din = s.din := rfl
@[simp] theorem fail_dout (c : Cause) (o : Bool) (s : State) : (fail c o s).dout = 0 := rfl
@[simp] theorem fail_status (c : Cause) (o : Bool) (s : State) : (fail c o s).status = statusFail c o s.status := rfl
@[simp] theorem fail_bus (c : Cause) (o : Bool) (s : State) : (fail c o s).bus = s.bus := rfl
@[simp] theorem fail_reads (c : Cause) (o : Bool) (s : State) : (fail c o s).reads = s.reads := rfl
@[simp] theorem fail_freeReads (c : Cause) (o : Bool) (s : State) : (fail c o s).freeReads = s.freeReads := rfl

@[simp] theorem clearStatus_ctrl (s : State) : (clearStatus s).ctrl = s.ctrl := rfl
@[simp] theorem clearStatus_alpha (s : State) : (clearStatus s).alpha = s.alpha := rfl
@[simp] theorem clearStatus_din (s : State) : (clearStatus s).din = s.din := rfl
@[simp] theorem clearStatus_dout (s : State) : (clearStatus s).dout = s.dout := rfl
@[simp] theorem clearStatus_status (s : State) : (clearStatus s).status = 0 := rfl
@[simp] theorem clearStatus_bus (s : State) : (clearStatus s).bus = s.bus := rfl
@[simp] theorem clearStatus_reads (s : State) : (clearStatus s).reads = s.reads := rfl
@[simp] theorem clearStatus_freeReads (s : State) : (clearStatus s).freeReads = s.freeReads := rfl

@[simp] theorem resetRegisters_ctrl (s : State) : (resetRegisters s).ctrl = 0x00000001#32 := rfl
@[simp] theorem resetRegisters_alpha (s : State) : (resetRegisters s).alpha = 0x003D2F2B#32 := rfl
@[simp] theorem resetRegisters_din (s : State) : (resetRegisters s).din = 0 := rfl
@[simp] theorem resetRegisters_dout (s : State) : (resetRegisters s).dout = 0 := rfl
@[simp] theorem resetRegisters_status (s : State) : (resetRegisters s).status = 0 := rfl
@[simp] theorem resetRegisters_bus (s : State) : (resetRegisters s).bus = s.bus := rfl
@[simp] theorem resetRegisters_reads (s : State) : (resetRegisters s).reads = s.reads := rfl
@[simp] theorem resetRegisters_freeReads (s : State) : (resetRegisters s).freeReads = s.freeReads := rfl

@[simp] theorem answerRead_ctrl (v : Word) (s : State) : (answerRead v s).ctrl = s.ctrl := rfl
@[simp] theorem answerRead_alpha (v : Word) (s : State) : (answerRead v s).alpha = s.alpha := rfl
@[simp] theorem answerRead_din (v : Word) (s : State) : (answerRead v s).din = s.din := rfl
@[simp] theorem answerRead_dout (v : Word) (s : State) : (answerRead v s).dout = s.dout := rfl
@[simp] theorem answerRead_status (v : Word) (s : State) : (answerRead v s).status = s.status := rfl
@[simp] theorem answerRead_bus (v : Word) (s : State) : (answerRead v s).bus = s.bus := rfl
@[simp] theorem answerRead_reads (v : Word) (s : State) : (answerRead v s).reads = v :: s.reads := rfl
@[simp] theorem answerRead_freeReads (v : Word) (s : State) : (answerRead v s).freeReads = s.freeReads := rfl

@[simp] theorem answerFree_ctrl (s : State) : (answerFree s).ctrl = s.ctrl := rfl
@[simp] theorem answerFree_alpha (s : State) : (answerFree s).alpha = s.alpha := rfl
@[simp] theorem answerFree_din (s : State) : (answerFree s).din = s.din := rfl
@[simp] theorem answerFree_dout (s : State) : (answerFree s).dout = s.dout := rfl
@[simp] theorem answerFree_status (s : State) : (answerFree s).status = s.status := rfl
@[simp] theorem answerFree_bus (s : State) : (answerFree s).bus = s.bus := rfl
@[simp] theorem answerFree_reads (s : State) : (answerFree s).reads = Config.freeRead s.freeReads :: s.reads := rfl
@[simp] theorem answerFree_freeReads (s : State) : (answerFree s).freeReads = s.freeReads + 1 := rfl

@[simp] theorem enqueueFirst_ctrl (e : BusEvent) (s : State) : (enqueueFirst e s).ctrl = s.ctrl := rfl
@[simp] theorem enqueueFirst_alpha (e : BusEvent) (s : State) : (enqueueFirst e s).alpha = s.alpha := rfl
@[simp] theorem enqueueFirst_din (e : BusEvent) (s : State) : (enqueueFirst e s).din = s.din := rfl
@[simp] theorem enqueueFirst_dout (e : BusEvent) (s : State) : (enqueueFirst e s).dout = s.dout := rfl
@[simp] theorem enqueueFirst_status (e : BusEvent) (s : State) : (enqueueFirst e s).status = s.status := rfl
@[simp] theorem enqueueFirst_bus (e : BusEvent) (s : State) : (enqueueFirst e s).bus = e :: s.bus := rfl
@[simp] theorem enqueueFirst_reads (e : BusEvent) (s : State) : (enqueueFirst e s).reads = s.reads := rfl
@[simp] theorem enqueueFirst_freeReads (e : BusEvent) (s : State) : (enqueueFirst e s).freeReads = s.freeReads := rfl

@[simp] theorem writeSlot_ctrl_ctrl (v : Word) (s : State) : (writeSlot .ctrl v s).ctrl = v &&& ctrlMask := rfl
@[simp] theorem writeSlot_ctrl_alpha (v : Word) (s : State) : (writeSlot .ctrl v s).alpha = s.alpha := rfl
@[simp] theorem writeSlot_ctrl_din (v : Word) (s : State) : (writeSlot .ctrl v s).din = s.din := rfl
@[simp] theorem writeSlot_ctrl_dout (v : Word) (s : State) : (writeSlot .ctrl v s).dout = s.dout := rfl
@[simp] theorem writeSlot_ctrl_status (v : Word) (s : State) : (writeSlot .ctrl v s).status = s.status := rfl
@[simp] theorem writeSlot_ctrl_bus (v : Word) (s : State) : (writeSlot .ctrl v s).bus = s.bus := rfl
@[simp] theorem writeSlot_ctrl_reads (v : Word) (s : State) : (writeSlot .ctrl v s).reads = s.reads := rfl
@[simp] theorem writeSlot_ctrl_freeReads (v : Word) (s : State) : (writeSlot .ctrl v s).freeReads = s.freeReads := rfl

@[simp] theorem writeSlot_alpha_ctrl (v : Word) (s : State) : (writeSlot .alpha v s).ctrl = s.ctrl := rfl
@[simp] theorem writeSlot_alpha_alpha (v : Word) (s : State) : (writeSlot .alpha v s).alpha = v &&& alphaMask := rfl
@[simp] theorem writeSlot_alpha_din (v : Word) (s : State) : (writeSlot .alpha v s).din = s.din := rfl
@[simp] theorem writeSlot_alpha_dout (v : Word) (s : State) : (writeSlot .alpha v s).dout = s.dout := rfl
@[simp] theorem writeSlot_alpha_status (v : Word) (s : State) : (writeSlot .alpha v s).status = s.status := rfl
@[simp] theorem writeSlot_alpha_bus (v : Word) (s : State) : (writeSlot .alpha v s).bus = s.bus := rfl
@[simp] theorem writeSlot_alpha_reads (v : Word) (s : State) : (writeSlot .alpha v s).reads = s.reads := rfl
@[simp] theorem writeSlot_alpha_freeReads (v : Word) (s : State) : (writeSlot .alpha v s).freeReads = s.freeReads := rfl

@[simp] theorem writeSlot_din_ctrl (v : Word) (s : State) : (writeSlot .din v s).ctrl = s.ctrl := rfl
@[simp] theorem writeSlot_din_alpha (v : Word) (s : State) : (writeSlot .din v s).alpha = s.alpha := rfl
@[simp] theorem writeSlot_din_din (v : Word) (s : State) : (writeSlot .din v s).din = v := rfl
@[simp] theorem writeSlot_din_dout (v : Word) (s : State) : (writeSlot .din v s).dout = s.dout := rfl
@[simp] theorem writeSlot_din_status (v : Word) (s : State) : (writeSlot .din v s).status = s.status := rfl
@[simp] theorem writeSlot_din_bus (v : Word) (s : State) : (writeSlot .din v s).bus = s.bus := rfl
@[simp] theorem writeSlot_din_reads (v : Word) (s : State) : (writeSlot .din v s).reads = s.reads := rfl
@[simp] theorem writeSlot_din_freeReads (v : Word) (s : State) : (writeSlot .din v s).freeReads = s.freeReads := rfl

@[simp] theorem writeSlot_cmd (v : Word) (s : State) : writeSlot .cmd v s = s := rfl
@[simp] theorem writeSlot_dout (v : Word) (s : State) : writeSlot .dout v s = s := rfl
@[simp] theorem writeSlot_status (v : Word) (s : State) : writeSlot .status v s = s := rfl
@[simp] theorem writeSlot_rsv18 (v : Word) (s : State) : writeSlot .rsv18 v s = s := rfl
@[simp] theorem writeSlot_rsv1C (v : Word) (s : State) : writeSlot .rsv1C v s = s := rfl

@[simp] theorem readSlot_ctrl (s : State) : readSlot .ctrl s = s.ctrl := rfl
@[simp] theorem readSlot_alpha (s : State) : readSlot .alpha s = s.alpha := rfl
@[simp] theorem readSlot_cmd (s : State) : readSlot .cmd s = 0 := rfl
@[simp] theorem readSlot_din (s : State) : readSlot .din s = s.din := rfl
@[simp] theorem readSlot_dout (s : State) : readSlot .dout s = s.dout := rfl
@[simp] theorem readSlot_status (s : State) : readSlot .status s = s.status := rfl
@[simp] theorem readSlot_rsv18 (s : State) : readSlot .rsv18 s = 0 := rfl
@[simp] theorem readSlot_rsv1C (s : State) : readSlot .rsv1C s = 0 := rfl

@[simp] theorem lastRead_answerRead (v : Word) (s : State) : lastRead (answerRead v s) = v := rfl

/-- Taking an event off the bus undoes putting it there. -/
@[simp] theorem bus_enqueueFirst (e : BusEvent) (s : State) : { enqueueFirst e s with bus := s.bus } = s := rfl

end Sys2Proof.Machine
end

