-- ==== Sys2Proof/Laws/Flags.lean ====
section
/-! SUPPORT. What the field operations and the two STATUS computations do, said once: bit by bit for `setField`, field
by field for `statusComplete` and `statusFail`. -/

namespace Sys2Proof.Machine

/-- The bits of a register after one of its fields is written. -/
theorem getLsbD_setField (w : Word) (lo n : Nat) (v : BitVec n) (i : Nat) (hi : i < 32) :
    (setField w lo n v).getLsbD i = if lo ≤ i ∧ i < lo + n then v.getLsbD (i - lo) else w.getLsbD i := by
  unfold setField
  simp only [BitVec.getLsbD_or, BitVec.getLsbD_and, BitVec.getLsbD_not, BitVec.getLsbD_shiftLeft,
    BitVec.getLsbD_setWidth, BitVec.getLsbD_allOnes, hi, decide_true, Bool.true_and]
  by_cases h1 : i < lo
  · simp [h1, show ¬ lo ≤ i by omega]
  · by_cases h2 : i < lo + n
    · have : i - lo < n := by omega
      simp [h1, h2, this, show lo ≤ i by omega, show i - lo < 32 by omega]
    · have : ¬ i - lo < n := by omega
      simp [h1, h2, this, show i - lo < 32 by omega, BitVec.getLsbD_of_ge v (i - lo) (by omega)]

/-- The bits of a field. -/
theorem getLsbD_getField (w : Word) (lo n i : Nat) :
    (getField w lo n).getLsbD i = (decide (i < n) && w.getLsbD (lo + i)) := by
  simp [getField]

/-- A field reads as it was written. -/
theorem getField_setField (w : Word) (lo n : Nat) (v : BitVec n) (h : lo + n ≤ 32) :
    getField (setField w lo n v) lo n = v := by
  apply BitVec.eq_of_getLsbD_eq
  intro i hi
  rw [getLsbD_getField, getLsbD_setField _ _ _ _ _ (by omega)]
  simp [hi]

/-- Writing a field leaves every field below or above it. -/
theorem getField_setField_of_disjoint (w : Word) (lo n lo' n' : Nat) (v : BitVec n) (h' : lo' + n' ≤ 32)
    (hd : lo' + n' ≤ lo ∨ lo + n ≤ lo') : getField (setField w lo n v) lo' n' = getField w lo' n' := by
  apply BitVec.eq_of_getLsbD_eq
  intro i hi
  rw [getLsbD_getField, getLsbD_getField, getLsbD_setField _ _ _ _ _ (by omega)]
  rw [if_neg (by omega)]

/-- A one-bit field reads as it was written. -/
theorem getLsbD_setField_bit (w : Word) (lo : Nat) (b : Bool) (h : lo < 32) :
    (setField w lo 1 (BitVec.ofBool b)).getLsbD lo = b := by
  rw [getLsbD_setField _ _ _ _ _ h]
  simp

/-- A one-bit field is left by a write to a field that does not hold it. -/
theorem getLsbD_setField_of_not_mem (w : Word) (lo n i : Nat) (v : BitVec n) (hi : i < 32) (h : i < lo ∨ lo + n ≤ i) :
    (setField w lo n v).getLsbD i = w.getLsbD i := by
  rw [getLsbD_setField _ _ _ _ _ hi, if_neg (by omega)]

/-- The reserved bits of STATUS are left by a write to a field inside `statusMask`. -/
theorem reserved_setField (w : Word) (lo n : Nat) (v : BitVec n)
    (h : ∀ i < 32, lo ≤ i ∧ i < lo + n → statusMask.getLsbD i = true) :
    setField w lo n v &&& ~~~statusMask = w &&& ~~~statusMask := by
  apply BitVec.eq_of_getLsbD_eq
  intro i hi
  simp only [BitVec.getLsbD_and, BitVec.getLsbD_not, hi, decide_true, Bool.true_and, getLsbD_setField w lo n v i hi]
  split
  · next hm => simp [h i hi hm]
  · rfl

/-- STATUS after a successful command, field by field (R41). -/
theorem statusComplete_fields (n : BitVec 3) (o : Bool) (st : Word) :
    statusCount (statusComplete n o st) = n ∧ statusErr (statusComplete n o st) = false ∧
      statusCause (statusComplete n o st) = 0 ∧ statusOob (statusComplete n o st) = o ∧
      statusSoob (statusComplete n o st) = (statusSoob st || o) ∧
      statusSerr (statusComplete n o st) = statusSerr st ∧ statusFcause (statusComplete n o st) = statusFcause st ∧
      statusComplete n o st &&& ~~~statusMask = st &&& ~~~statusMask := by
  unfold statusComplete statusCount statusErr statusCause statusOob statusSoob statusSerr statusFcause withSoob withOob
    withCause withErr withCount
  refine ⟨?_, ?_, ?_, ?_, ?_, ?_, ?_, ?_⟩
  · simp [getField_setField_of_disjoint, getField_setField]
  · simp (disch := omega) only [getLsbD_setField_of_not_mem, getLsbD_setField_bit]
  · simp [getField_setField_of_disjoint, getField_setField, Cause.code]
  · simp (disch := omega) only [getLsbD_setField_of_not_mem, getLsbD_setField_bit]
  · simp (disch := omega) only [getLsbD_setField_bit]
  · simp (disch := omega) only [getLsbD_setField_of_not_mem]
  · simp [getField_setField_of_disjoint]
  · rw [reserved_setField _ 17 1 _ (by decide), reserved_setField _ 7 1 _ (by decide),
      reserved_setField _ 4 3 _ (by decide), reserved_setField _ 3 1 _ (by decide), reserved_setField _ 0 3 _ (by decide)]

/-- STATUS after a failing command, field by field (R301). -/
theorem statusFail_fields (c : Cause) (o : Bool) (st : Word) :
    statusCount (statusFail c o st) = 0 ∧ statusErr (statusFail c o st) = true ∧
      statusCause (statusFail c o st) = c.code ∧ statusOob (statusFail c o st) = o ∧
      statusSerr (statusFail c o st) = true ∧ statusSoob (statusFail c o st) = (statusSoob st || o) ∧
      statusFcause (statusFail c o st) = (if statusSerr st then statusFcause st else c.code) ∧
      statusFail c o st &&& ~~~statusMask = st &&& ~~~statusMask := by
  unfold statusFail
  by_cases hs : statusSerr st
  all_goals
    simp only [hs, if_true, if_false, Bool.false_eq_true]
    unfold statusCount statusErr statusCause statusOob statusSoob statusSerr statusFcause withSoob withSerr withOob
      withCause withErr withCount
    try unfold withFcause
    refine ⟨?_, ?_, ?_, ?_, ?_, ?_, ?_, ?_⟩
    · simp [getField_setField_of_disjoint, getField_setField]
    · simp (disch := omega) only [getLsbD_setField_of_not_mem, getLsbD_setField_bit]
    · simp [getField_setField_of_disjoint, getField_setField]
    · simp (disch := omega) only [getLsbD_setField_of_not_mem, getLsbD_setField_bit]
    · simp (disch := omega) only [getLsbD_setField_of_not_mem, getLsbD_setField_bit]
    · simp (disch := omega) only [getLsbD_setField_of_not_mem, getLsbD_setField_bit]
    · simp [getField_setField_of_disjoint, getField_setField]
    · repeat rw [reserved_setField _ _ _ _ (by decide)]

/-- Two STATUS words with the same fields and the same reserved bits are the same word. -/
theorem status_ext (a b : Word) (h1 : statusCount a = statusCount b) (h2 : statusErr a = statusErr b)
    (h3 : statusCause a = statusCause b) (h4 : statusOob a = statusOob b) (h5 : statusSerr a = statusSerr b)
    (h6 : statusSoob a = statusSoob b) (h7 : statusFcause a = statusFcause b)
    (h8 : a &&& ~~~statusMask = b &&& ~~~statusMask) : a = b := by
  apply BitVec.eq_of_getLsbD_eq
  intro i hi
  have g (lo n : Nat) (h : getField a lo n = getField b lo n) (j) (hj : lo ≤ j ∧ j < lo + n) :
      a.getLsbD j = b.getLsbD j := by
    have := congrArg (fun v => BitVec.getLsbD v (j - lo)) h
    simpa only [getLsbD_getField, show j - lo < n by omega, show lo + (j - lo) = j by omega, decide_true,
      Bool.true_and] using this
  by_cases hm : statusMask.getLsbD i = true
  · have : i < 8 ∨ i = 16 ∨ i = 17 ∨ (20 ≤ i ∧ i < 23) := by
      revert hm; revert i; decide
    rcases (show (i < 3) ∨ i = 3 ∨ (4 ≤ i ∧ i < 7) ∨ i = 7 ∨ i = 16 ∨ i = 17 ∨ (20 ≤ i ∧ i < 23) by omega) with
      h | rfl | h | rfl | rfl | rfl | h
    · exact g 0 3 h1 i (by omega)
    · exact h2
    · exact g 4 3 h3 i (by omega)
    · exact h4
    · exact h5
    · exact h6
    · exact g 20 3 h7 i (by omega)
  · have := congrArg (fun v => BitVec.getLsbD v i) h8
    simpa only [BitVec.getLsbD_and, BitVec.getLsbD_not, hi, decide_true, Bool.true_and, Bool.eq_false_iff.2 hm,
      Bool.not_false, Bool.and_true] using this

end Sys2Proof.Machine
end

