-- ==== Sys2Proof/Laws/Ops.lean ====
section
/-! SUPPORT. What the shared operations of the machine do, said once each: the two ends of a command, the slots of the
window and the offsets that are admitted. Provers cite these and do not unfold the operations. -/

namespace Sys2Proof.Machine

/-- `complete` does what R41 says. -/
theorem complete_completedWith (r : Word) (n : BitVec 3) (o : Bool) (s : State) :
    CompletedWith s (complete r n o s) r n o := by
  obtain ⟨h1, h2, h3, h4, h5, h6, h7, h8⟩ := statusComplete_fields n o s.status
  exact ⟨rfl, h1, h2, h3, h4, h5, h6, h7, h8, rfl, rfl, rfl, rfl, rfl, rfl⟩

/-- `fail` does what R301 says. -/
theorem fail_failedWith (c : Cause) (o : Bool) (s : State) : FailedWith s (fail c o s) c.code o := by
  obtain ⟨h1, h2, h3, h4, h5, h6, h7, h8⟩ := statusFail_fields c o s.status
  exact ⟨rfl, h1, h2, h3, h4, h5, h6, h7, h8, rfl, rfl, rfl, rfl, rfl, rfl⟩

theorem SameBesidesResult.refl (s : State) : SameBesidesResult s s := ⟨rfl, rfl, rfl, rfl, rfl, rfl⟩

theorem complete_same (r : Word) (n : BitVec 3) (o : Bool) (s : State) : SameBesidesResult s (complete r n o s) :=
  ⟨rfl, rfl, rfl, rfl, rfl, rfl⟩

theorem fail_same (c : Cause) (o : Bool) (s : State) : SameBesidesResult s (fail c o s) :=
  ⟨rfl, rfl, rfl, rfl, rfl, rfl⟩

theorem clearStatus_same (s : State) : SameBesidesResult s (clearStatus s) := ⟨rfl, rfl, rfl, rfl, rfl, rfl⟩

/-- The end of a decode command: it fails with SYMBOL or completes (R224). -/
theorem finishDecode_cases (r : Word) (n : BitVec 3) (o : Bool) (s : State) :
    (strict s.ctrl = true ∧ o = true ∧ finishDecode r n o s = fail .symbol o s) ∨
      ((strict s.ctrl = false ∨ o = false) ∧ finishDecode r n o s = complete r n o s) := by
  cases hs : strict s.ctrl <;> cases ho : o <;> simp [finishDecode, hs]

/-- Every command answers a next state that is the old one, a completed one, a failed one or the cleared one. -/
theorem exec_cases (i : Instr) (s : State) :
    (i = .nop ∧ exec i s = .next s) ∨ (i = .clrs ∧ exec i s = .next (clearStatus s)) ∨
      (i ≠ .nop ∧ i ≠ .clrs ∧
        ((∃ r n o, n.toNat ≤ 4 ∧ exec i s = .next (complete r n o s)) ∨
          ∃ c o, c ≠ .none ∧ exec i s = .next (fail c o s))) := by
  have fin (r : Word) (n : BitVec 3) (o : Bool) (hn : n.toNat ≤ 4) :
      (∃ r' n' o', n'.toNat ≤ 4 ∧
          (Host.Outcome.next (finishDecode r n o s) : Host.Outcome State Fault Refusal) = .next (complete r' n' o' s)) ∨
        ∃ c o', c ≠ Cause.none ∧
          (Host.Outcome.next (finishDecode r n o s) : Host.Outcome State Fault Refusal) = .next (fail c o' s) := by
    rcases finishDecode_cases r n o s with ⟨-, -, h⟩ | ⟨-, h⟩
    · exact .inr ⟨.symbol, o, by decide, by rw [h]⟩
    · exact .inl ⟨r, n, o, hn, by rw [h]⟩
  cases i with
  | nop => exact .inl ⟨rfl, rfl⟩
  | clrs => exact .inr (.inl ⟨rfl, rfl⟩)
  | encg => exact .inr (.inr ⟨by decide, by decide, .inl ⟨_, _, _, by decide, rfl⟩⟩)
  | enct1 =>
    refine .inr (.inr ⟨by decide, by decide, .inl ?_⟩)
    simp only [exec, execEnct1]
    split
    · exact ⟨_, _, _, by decide, rfl⟩
    · exact ⟨_, _, _, by decide, rfl⟩
  | enct2 =>
    refine .inr (.inr ⟨by decide, by decide, .inl ?_⟩)
    simp only [exec, execEnct2]
    split
    · exact ⟨_, _, _, by decide, rfl⟩
    · exact ⟨_, _, _, by decide, rfl⟩
  | elen =>
    refine .inr (.inr ⟨by decide, by decide, ?_⟩)
    simp only [exec, execElen]
    split
    · exact .inr ⟨.range, false, by decide, rfl⟩
    · exact .inl ⟨_, _, _, by decide, rfl⟩
  | decg =>
    refine .inr (.inr ⟨by decide, by decide, ?_⟩)
    simp only [exec, execDecg]
    split
    · exact .inr ⟨.padding, _, by decide, rfl⟩
    · exact fin _ _ _ (by decide)
  | decgL =>
    refine .inr (.inr ⟨by decide, by decide, ?_⟩)
    simp only [exec, execDecgL]
    split
    · exact .inr ⟨.padding, _, by decide, rfl⟩
    · next n hn =>
      refine fin _ _ _ ?_
      unfold finalGroupCount at hn
      split at hn <;> simp at hn <;> subst hn <;> decide
  | dect2 =>
    refine .inr (.inr ⟨by decide, by decide, ?_⟩)
    simp only [exec, execDect2]
    split
    · exact .inr ⟨.length, _, by decide, rfl⟩
    · exact fin _ _ _ (by decide)
  | dect3 =>
    refine .inr (.inr ⟨by decide, by decide, ?_⟩)
    simp only [exec, execDect3]
    split
    · exact .inr ⟨.length, _, by decide, rfl⟩
    · exact fin _ _ _ (by decide)
  | dlen =>
    refine .inr (.inr ⟨by decide, by decide, ?_⟩)
    simp only [exec, execDlen]
    repeat' split
    · exact .inr ⟨.empty, _, by decide, rfl⟩
    · exact .inr ⟨.length, _, by decide, rfl⟩
    · exact .inl ⟨_, _, _, by decide, rfl⟩
    · exact .inr ⟨.length, _, by decide, rfl⟩
    · exact .inl ⟨_, _, _, by decide, rfl⟩

/-- The slots stand at their offsets (R21, R72). -/
@[simp] theorem slotAt_offset (slot : Slot) : slotAt slot.offset = some slot := by cases slot <;> rfl

@[simp] theorem admittedSlot_offset (slot : Slot) : admittedSlot slot.offset 4 = some slot := by
  simp [admittedSlot]

/-- An offset holds a slot exactly when it is a multiple of 4 (R72, R75). -/
theorem slotAt_eq_some_iff (off : Offset) : (slotAt off).isSome = true ↔ off.toNat % 4 = 0 := by
  revert off; decide

/-- Every command answers a next state (R302). -/
theorem exec_next (i : Instr) (s : State) : ∃ t, exec i s = .next t := by
  rcases exec_cases i s with ⟨-, h⟩ | ⟨-, h⟩ | ⟨-, -, ⟨_, _, _, -, h⟩ | ⟨_, _, -, h⟩⟩ <;> exact ⟨_, h⟩

/-- A decode command whose symbols pass the test completes. -/
theorem finishDecode_complete (r : Word) (n : BitVec 3) {s : State} {o : Bool} (h : strict s.ctrl = false ∨ o = false) :
    finishDecode r n o s = complete r n o s := by
  unfold finishDecode
  rw [if_neg]
  rcases h with h | h <;> simp [h]

/-- A decode command whose symbols do not pass it fails with SYMBOL. -/
theorem finishDecode_fail (r : Word) (n : BitVec 3) {s : State} {o : Bool} (h : ¬(strict s.ctrl = false ∨ o = false)) :
    finishDecode r n o s = fail .symbol true s := by
  simp only [not_or, Bool.not_eq_false] at h
  simp [finishDecode, h.1, h.2]

/-- What a command other than NOP and CLRS ends with is one function of CTRL, ALPHA and DIN (R46). -/
theorem exec_cases_of_operands (i : Instr) (hi : i ≠ .nop) (hc : i ≠ .clrs) (c a d : Word) :
    (∃ r n o, n.toNat ≤ 4 ∧
        ∀ s : State, s.ctrl = c → s.alpha = a → s.din = d → exec i s = .next (complete r n o s)) ∨
      (∃ k o, k ≠ .none ∧
        ∀ s : State, s.ctrl = c → s.alpha = a → s.din = d → exec i s = .next (fail k o s)) := by
  have fin : ∀ r n o, n.toNat ≤ 4 →
      (∃ r' n' o', n'.toNat ≤ 4 ∧ ∀ s : State, s.ctrl = c → finishDecode r n o s = complete r' n' o' s) ∨
        (∃ k o', k ≠ .none ∧ ∀ s : State, s.ctrl = c → finishDecode r n o s = fail k o' s) := by
    intro r n o hn
    by_cases h : strict c = false ∨ o = false
    · exact .inl ⟨r, n, o, hn, fun s hs => finishDecode_complete _ _ (hs ▸ h)⟩
    · exact .inr ⟨.symbol, true, by decide, fun s hs => finishDecode_fail _ _ (hs ▸ h)⟩
  cases i with
  | nop => exact absurd rfl hi
  | clrs => exact absurd rfl hc
  | encg => exact .inl ⟨_, _, _, (by decide : (4 : BitVec 3).toNat ≤ 4), fun s _ h2 h3 => by
        simp only [exec, execEncg, h2, h3]; rfl⟩
  | enct1 =>
    cases hp : padEn c
    · exact .inl ⟨_, _, _, (by decide : (2 : BitVec 3).toNat ≤ 4), fun s h1 h2 h3 => by
          simp only [exec, execEnct1, h1, h2, h3, hp]; rfl⟩
    · exact .inl ⟨_, _, _, (by decide : (4 : BitVec 3).toNat ≤ 4), fun s h1 h2 h3 => by
          simp only [exec, execEnct1, h1, h2, h3, hp]; rfl⟩
  | enct2 =>
    cases hp : padEn c
    · exact .inl ⟨_, _, _, (by decide : (3 : BitVec 3).toNat ≤ 4), fun s h1 h2 h3 => by
          simp only [exec, execEnct2, h1, h2, h3, hp]; rfl⟩
    · exact .inl ⟨_, _, _, (by decide : (4 : BitVec 3).toNat ≤ 4), fun s h1 h2 h3 => by
          simp only [exec, execEnct2, h1, h2, h3, hp]; rfl⟩
  | elen =>
    by_cases hp : targetLength (padEn c) d.toNat > 0xFFFFFFFF
    · exact .inr ⟨.range, false, by decide, fun s h1 _ h3 => by simp only [exec, execElen, h1, h3, if_pos hp]⟩
    · exact .inl ⟨_, _, _, (by decide : (0 : BitVec 3).toNat ≤ 4), fun s h1 _ h3 => by
          simp only [exec, execElen, h1, h3, if_neg hp]; rfl⟩
  | dlen =>
    by_cases h0 : d.toNat = 0
    · exact .inr ⟨.empty, false, by decide, fun s h1 _ h3 => by simp only [exec, execDlen, h1, h3, if_pos h0]⟩
    cases hp : padEn c
    · by_cases h : d.toNat % 4 = 1
      · exact .inr ⟨.length, false, by decide, fun s h1 _ h3 => by
            simp only [exec, execDlen, h1, h3, if_neg h0, hp, if_neg Bool.false_ne_true, if_pos h]⟩
      · exact .inl ⟨_, _, _, (by decide : (0 : BitVec 3).toNat ≤ 4), fun s h1 _ h3 => by
            simp only [exec, execDlen, h1, h3, if_neg h0, hp, if_neg Bool.false_ne_true, if_neg h]; rfl⟩
    · by_cases h : d.toNat % 4 ≠ 0
      · exact .inr ⟨.length, false, by decide, fun s h1 _ h3 => by
            simp only [exec, execDlen, h1, h3, if_neg h0, hp, if_true, if_pos h]⟩
      · exact .inl ⟨_, _, _, (by decide : (0 : BitVec 3).toNat ≤ 4), fun s h1 _ h3 => by
            simp only [exec, execDlen, h1, h3, if_neg h0, hp, if_true, if_neg h]; rfl⟩
  | decg =>
    by_cases h : [lane d 0, lane d 1, lane d 2, lane d 3].any (isPad c a) = true
    · exact .inr ⟨.padding, _, by decide, fun s h1 h2 h3 => by simp only [exec, execDecg, h1, h2, h3, if_pos h]; rfl⟩
    · rcases fin (word (byte0 (decodeValue a (lane d 0)) (decodeValue a (lane d 1)))
          (byte1 (decodeValue a (lane d 1)) (decodeValue a (lane d 2)))
          (byte2 (decodeValue a (lane d 2)) (decodeValue a (lane d 3))) 0) 3
          (anyOob c a [lane d 0, lane d 1, lane d 2, lane d 3]) (by decide) with ⟨r, n, o, hn, hh⟩ | ⟨k, o, hk, hh⟩
      · exact .inl ⟨r, n, o, hn, fun s h1 h2 h3 => by simp only [exec, execDecg, h1, h2, h3, if_neg h, hh s h1]⟩
      · exact .inr ⟨k, o, hk, fun s h1 h2 h3 => by simp only [exec, execDecg, h1, h2, h3, if_neg h, hh s h1]⟩
  | decgL =>
    cases hf : finalGroupCount (isPad c a (lane d 0)) (isPad c a (lane d 1)) (isPad c a (lane d 2))
        (isPad c a (lane d 3)) with
    | none => exact .inr ⟨.padding, _, by decide, fun s h1 h2 h3 => by
          simp only [exec, execDecgL, h1, h2, h3, hf]; rfl⟩
    | some n =>
      have hn : (BitVec.ofNat 3 n).toNat ≤ 4 := by
        unfold finalGroupCount at hf
        split at hf <;> simp at hf <;> subst hf <;> decide
      rcases fin (firstBytes n (byte0 (finalValue a n 0 (lane d 0)) (finalValue a n 1 (lane d 1)))
          (byte1 (finalValue a n 1 (lane d 1)) (finalValue a n 2 (lane d 2)))
          (byte2 (finalValue a n 2 (lane d 2)) (finalValue a n 3 (lane d 3)))) (BitVec.ofNat 3 n)
          (anyOob c a [lane d 0, lane d 1, lane d 2, lane d 3]) hn with ⟨r, n, o, hn, hh⟩ | ⟨k, o, hk, hh⟩
      · exact .inl ⟨r, n, o, hn, fun s h1 h2 h3 => by simp only [exec, execDecgL, h1, h2, h3, hf, hh s h1]⟩
      · exact .inr ⟨k, o, hk, fun s h1 h2 h3 => by simp only [exec, execDecgL, h1, h2, h3, hf, hh s h1]⟩
  | dect2 =>
    cases hp : padEn c
    · rcases fin (word (byte0 (decodeValue a (lane d 0)) (decodeValue a (lane d 1))) 0 0 0) 1
          (anyOob c a [lane d 0, lane d 1]) (by decide) with ⟨r, n, o, hn, hh⟩ | ⟨k, o, hk, hh⟩
      · exact .inl ⟨r, n, o, hn, fun s h1 h2 h3 => by
            simp only [exec, execDect2, h1, h2, h3, hp, if_neg Bool.false_ne_true, hh s h1]⟩
      · exact .inr ⟨k, o, hk, fun s h1 h2 h3 => by
            simp only [exec, execDect2, h1, h2, h3, hp, if_neg Bool.false_ne_true, hh s h1]⟩
    · exact .inr ⟨.length, _, by decide, fun s h1 h2 h3 => by
          simp only [exec, execDect2, h1, h2, h3, hp, if_true]; rfl⟩
  | dect3 =>
    cases hp : padEn c
    · rcases fin (word (byte0 (decodeValue a (lane d 0)) (decodeValue a (lane d 1)))
          (byte1 (decodeValue a (lane d 1)) (decodeValue a (lane d 2))) 0 0) 2
          (anyOob c a [lane d 0, lane d 1, lane d 2]) (by decide) with ⟨r, n, o, hn, hh⟩ | ⟨k, o, hk, hh⟩
      · exact .inl ⟨r, n, o, hn, fun s h1 h2 h3 => by
            simp only [exec, execDect3, h1, h2, h3, hp, if_neg Bool.false_ne_true, hh s h1]⟩
      · exact .inr ⟨k, o, hk, fun s h1 h2 h3 => by
            simp only [exec, execDect3, h1, h2, h3, hp, if_neg Bool.false_ne_true, hh s h1]⟩
    · exact .inr ⟨.length, _, by decide, fun s h1 h2 h3 => by
          simp only [exec, execDect3, h1, h2, h3, hp, if_true]; rfl⟩

/-- An offset of a slot is that slot's offset. -/
theorem eq_offset_of_slotAt {off : Offset} {slot : Slot} (h : slotAt off = some slot) : off = slot.offset := by
  have key : ∀ off : Offset, ∀ slot ∈ [Slot.ctrl, .alpha, .cmd, .din, .dout, .status, .rsv18, .rsv1C],
      slotAt off = some slot → off = slot.offset := by decide
  exact key off slot (by cases slot <;> decide) h

/-- No other access than a 32-bit one at a multiple of 4 is admitted (R75). -/
theorem admittedSlot_eq_none {off : Offset} {width : Nat} (h : width ≠ 4 ∨ off.toNat % 4 ≠ 0) :
    admittedSlot off width = none := by
  unfold admittedSlot
  split
  · have := slotAt_eq_some_iff off
    cases hs : slotAt off with
    | none => rfl
    | some slot =>
      simp [hs] at this
      omega
  · rfl

/-- An offset in the window is reached at `BASE` plus it (R70). -/
theorem windowOffset_base_add {off : Nat} (h : off < 32) : windowOffset (Config.base + off) = some (BitVec.ofNat 5 off) := by
  unfold windowOffset Config.base
  rw [if_pos (by omega)]
  congr 1
  apply BitVec.eq_of_toNat_eq
  simp

/-- An address in the window is `BASE` plus its offset (R70). -/
theorem eq_base_add_of_windowOffset {addr : Nat} {off : Offset} (h : windowOffset addr = some off) :
    addr = Config.base + off.toNat := by
  unfold windowOffset at h
  split at h
  · cases h
    simp [Config.base]
    omega
  · cases h

/-- An address outside the window is no offset of it (R75). -/
theorem windowOffset_eq_none {addr : Nat} (h : addr < Config.base ∨ Config.base + 32 ≤ addr) : windowOffset addr = none := by
  unfold windowOffset
  rw [if_neg]
  unfold Config.base at h
  omega

end Sys2Proof.Machine
end

