-- ==== Sys2Proof/Laws/Step.lean ====
section
/-! SUPPORT. What a step can do, said once: it idles, or it performs the first event on the bus as a read, a register
write, a command or a reset, or it refuses an access that is not admitted. And what one host line does. -/

namespace Sys2Proof.Machine

/-- A step with nothing on the bus (R325). -/
theorem step_idle (s : State) (h : s.bus = []) : step s = .next s := by
  simp [step, performNext, h]

/-- A step performs the event that is first on the bus. -/
theorem step_event (s : State) (e : BusEvent) (rest : List BusEvent) (h : s.bus = e :: rest) :
    step s = performEvent e { s with bus := rest } := by
  simp [step, performNext, h]

/-- The event that the host enqueues first is what the next step performs. -/
@[simp] theorem step_enqueueFirst (e : BusEvent) (s : State) : step (enqueueFirst e s) = performEvent e s :=
  rfl

/-- A host read of a slot (R72). -/
theorem performEvent_read (slot : Slot) (s : State) :
    performEvent (.access (.read slot.offset 4)) s = .next (answerRead (readSlot slot s) s) := by
  cases slot <;> rfl

/-- A host write of a slot other than CMD (R73). -/
theorem performEvent_write (slot : Slot) (v : Word) (s : State) (h : slot ≠ .cmd) :
    performEvent (.access (.write slot.offset 4 v)) s = .next (writeSlot slot v s) := by
  cases slot <;> first | rfl | exact absurd rfl h

/-- A host write of CMD (R28, R73). -/
theorem performEvent_cmd (w : Word) (s : State) :
    performEvent (.access (.write Slot.cmd.offset 4 w)) s = performCommand w s := rfl

/-- The decoder gives back every encoded command. -/
theorem performCommand_encode (i : Instr) (s : State) : performCommand (encode i) s = exec i s := by
  cases i <;> rfl

/-- The step's cases: if a step answers a next state, the block was idle, or the first event was a reset, a read of a
slot, a write of a slot other than CMD, or a command. -/
theorem step_cases {s t : State} (h : step s = .next t) :
    (s.bus = [] ∧ t = s) ∨ ∃ e rest, s.bus = e :: rest ∧
      ((∃ f, e = .reset f ∧ t = performReset f { s with bus := rest }) ∨
        (∃ off slot, e = .access (.read off 4) ∧ slotAt off = some slot ∧
          t = answerRead (readSlot slot s) { s with bus := rest }) ∨
        (∃ off slot v, e = .access (.write off 4 v) ∧ slotAt off = some slot ∧ slot ≠ .cmd ∧
          t = writeSlot slot v { s with bus := rest }) ∨
        ∃ off w, e = .access (.write off 4 w) ∧ slotAt off = some .cmd ∧
          performCommand w { s with bus := rest } = .next t) := by
  cases hb : s.bus with
  | nil =>
    rw [step_idle s hb] at h
    exact .inl ⟨rfl, by simpa using h.symm⟩
  | cons e rest =>
    rw [step_event s e rest hb] at h
    refine .inr ⟨e, rest, rfl, ?_⟩
    cases e with
    | reset f => exact .inl ⟨f, rfl, by simpa [performEvent] using h.symm⟩
    | access a =>
      refine .inr ?_
      cases a with
      | read off width =>
        refine .inl ?_
        simp only [performEvent, performAccess] at h
        split at h
        · next slot hs =>
          unfold admittedSlot at hs
          split at hs
          · next hw => exact ⟨off, slot, by rw [hw], hs, by cases slot <;> simpa using h.symm⟩
          · cases hs
        · cases h
      | write off width v =>
        refine .inr ?_
        simp only [performEvent, performAccess] at h
        split at h
        · next hs =>
          unfold admittedSlot at hs
          split at hs
          · next hw => exact .inr ⟨off, v, by rw [hw], hs, h⟩
          · cases hs
        · next slot hne hs =>
          unfold admittedSlot at hs
          split at hs
          · next hw => exact .inl ⟨off, slot, v, by rw [hw], hs, by rintro rfl; exact hne rfl, by simpa using h.symm⟩
          · cases hs
        · cases h

/-- A command of any word answers a next state, and it is what R103 says. -/
theorem performCommand_cases (w : Word) (s : State) :
    (∃ i, decode w = .ok i ∧ performCommand w s = exec i s) ∨
      ∃ e, decode w = .error e ∧ performCommand w s = .next (fail .illegal false s) := by
  cases h : decode w with
  | ok i => exact .inl ⟨i, rfl, by simp [performCommand, h]⟩
  | error e => exact .inr ⟨e, rfl, by simp [performCommand, h]⟩

/-! The host's lines and procedures. -/

@[simp] theorem andThen_next {α β : Type} (a : α) (s : State) (f : α → State → Run β) :
    andThen (.next (a, s)) f = f a s := rfl

@[simp] theorem andThen_fault {α β : Type} (x : Fault) (f : α → State → Run β) :
    andThen (.fault x) f = .fault x := rfl

@[simp] theorem andThen_refused {α β : Type} (x : Refusal) (f : α → State → Run β) :
    andThen (.refused x) f = .refused x := rfl

/-- `rd REG` (R110). -/
@[simp] theorem readReg_eq (reg : Reg) (s : State) :
    readReg reg s = .next (readSlot reg.slot s, answerRead (readSlot reg.slot s) s) := by
  cases reg <;> rfl

/-- `wr DIN, v` (R110). -/
@[simp] theorem runLine_wr_din (v : Word) (s : State) :
    runLine (.wr .din v) s = .next (lastRead s, { s with din := v }) := rfl

/-- A command line performs its command (R110). -/
theorem runLine_command {i : Instr} {s t : State} (h : exec i s = .next t) :
    runLine (.command i) s = .next (lastRead t, t) := by
  have : step (enqueueFirst (.access (HostLine.command i).access) s) = .next t := by
    rw [step_enqueueFirst]
    exact (performCommand_encode i s).trans h
  simp [runLine, this]

/-- The host writes an operand and issues a command. -/
theorem command_eq {v : Word} {i : Instr} {s t : State} (h : exec i { s with din := v } = .next t) :
    command v i s = .next ((), t) := by
  simp [command, runLines, runLine_command h]

/-- One command on one operand, and the lanes of its result. -/
theorem transformLanes_eq {v : Word} {i : Instr} {s t : State} (n : Nat) (h : exec i { s with din := v } = .next t) :
    transformLanes v i n s = .next (lanes t.dout n, answerRead t.dout t) := by
  simp [transformLanes, readLanes, command_eq h, Reg.slot]

/-- One command on one operand, and the COUNT lanes of its result. -/
theorem transform_eq {v : Word} {i : Instr} {s t : State} (h : exec i { s with din := v } = .next t) :
    transform v i s =
      .next (lanes t.dout (statusCount t.status).toNat, answerRead t.dout (answerRead t.status t)) := by
  simp [transform, readResult, command_eq h, Reg.slot]

/-- Every command word answers a next state. -/
theorem performCommand_next (w : Word) (s : State) : ∃ t, performCommand w s = .next t := by
  rcases performCommand_cases w s with ⟨i, -, h⟩ | ⟨_, -, h⟩
  · rw [h]
    exact exec_next i s
  · exact ⟨_, h⟩

end Sys2Proof.Machine
end

