-- ==== Sys2Proof/Laws/HostProtocol.lean ====
section
/-! SUPPORT. The host procedures, piece by piece: how the block transform and the encode split distribute over a
concatenation, and what a fill of the working buffer takes (spec/41_encode_group.md R133;
spec/43_host_chunked_driver.md R190-R194). -/

namespace Sys2Proof.Machine

/-- Induction on a list by threes. -/
theorem list_induction_threes {α : Type} {P : List α → Prop} (short : ∀ l, l.length < 3 → P l)
    (group : ∀ a b c r, P r → P (a :: b :: c :: r)) : ∀ l, P l
  | [] => short _ (by simp)
  | [_] => short _ (by simp)
  | [_, _] => short _ (by simp)
  | a :: b :: c :: r => group a b c r (list_induction_threes short group r)

/-- Induction on a list by fours. -/
theorem list_induction_fours {α : Type} {P : List α → Prop} (short : ∀ l, l.length < 4 → P l)
    (group : ∀ a b c d r, P r → P (a :: b :: c :: d :: r)) : ∀ l, P l
  | [] => short _ (by simp)
  | [_] => short _ (by simp)
  | [_, _] => short _ (by simp)
  | [_, _, _] => short _ (by simp)
  | a :: b :: c :: d :: r => group a b c d r (list_induction_fours short group r)

theorem andThen_assoc {α β γ : Type} (r : Run α) (f : α → State → Run β) (g : β → State → Run γ) :
    andThen (andThen r f) g = andThen r fun a s => andThen (f a s) g := by
  rcases r with ⟨_, _⟩ | _ | _ <;> rfl

/-- No whole group, no symbols. -/
theorem blockTransform_short {l : List Byte} (h : l.length < 3) (s : State) : blockTransform l s = .next ([], s) := by
  rcases l with _ | ⟨a, _ | ⟨b, _ | ⟨c, r⟩⟩⟩
  · rfl
  · rfl
  · rfl
  · simp only [List.length_cons] at h
    omega

/-- The block transform of a span of whole groups and what follows it is the one after the other (R133). -/
theorem blockTransform_append (x y : List Byte) : ∀ s, x.length % 3 = 0 →
    blockTransform (x ++ y) s =
      andThen (blockTransform x s) fun a s => andThen (blockTransform y s) fun b s => .next (a ++ b, s) := by
  induction x using list_induction_threes with
  | short l h =>
    intro s h3
    obtain rfl : l = [] := List.length_eq_zero_iff.1 (by omega)
    simp only [List.nil_append, blockTransform_short (l := []) (by decide), andThen_next]
    rcases blockTransform y s with ⟨_, _⟩ | _ | _ <;> rfl
  | group a b c r ih =>
    intro s h3
    simp only [List.length_cons] at h3
    simp only [List.cons_append, blockTransform, andThen_assoc]
    congr 1
    funext q s
    rw [ih s (by omega), andThen_assoc]
    congr 1
    funext q s
    simp only [andThen_assoc, andThen_next, List.append_assoc]

/-- The encode split of a span of whole groups and what follows it (R190). -/
theorem encodeSplit_append (x y : List Byte) (s : State) (h : x.length % 3 = 0) :
    encodeSplit (x ++ y) s =
      andThen (blockTransform x s) fun a s => andThen (encodeSplit y s) fun b s => .next (a ++ b, s) := by
  unfold encodeSplit
  have e : (x ++ y).length / 3 * 3 = x.length + y.length / 3 * 3 := by
    simp only [List.length_append]
    omega
  simp only [e, List.take_length_add_append, List.drop_length_add_append]
  rw [blockTransform_append _ _ _ h, andThen_assoc]
  congr 1
  funext q s
  simp only [andThen_assoc, andThen_next, List.append_assoc]

/-- Below three bytes the encode split is the tail alone. -/
theorem encodeSplit_short {l : List Byte} (h : l.length < 3) (s : State) : encodeSplit l s = encodeTail l s := by
  unfold encodeSplit
  rw [show l.length / 3 * 3 = 0 by omega]
  simp only [List.take_zero, List.drop_zero, blockTransform_short (l := []) (by decide), andThen_next, List.nil_append]
  rcases encodeTail l s with ⟨_, _⟩ | _ | _ <;> rfl

/-- A fill takes a prefix of the source and leaves the rest (R192). -/
theorem fillUnits_spec (units : List (List Byte)) : ∀ room most,
    (fillUnits room most units).1 ++ (fillUnits room most units).2.flatten = units.flatten ∧
      (fillUnits room most units).2.length ≤ units.length ∧ (fillUnits room most units).1.length ≤ room ∧
      ∀ u ∈ (fillUnits room most units).2, u ∈ units := by
  induction units with
  | nil => exact fun room most => ⟨rfl, le_rfl, Nat.zero_le _, fun _ h => h⟩
  | cons u us ih =>
    intro room most
    unfold fillUnits
    split
    · obtain ⟨h1, h2, h3, h4⟩ := ih (room - u.length) (most - 1)
      refine ⟨?_, ?_, ?_, fun v hv => List.mem_cons_of_mem _ (h4 v hv)⟩
      · simp [List.append_assoc, h1]
      · simp only [List.length_cons]
        omega
      · simp only [List.length_append]
        omega
    · exact ⟨rfl, le_rfl, Nat.zero_le _, fun _ h => h⟩

/-- A fill that may take a unit takes the first one where it fits (R195). -/
theorem fillUnits_progress {u : List Byte} {room most : Nat} (us : List (List Byte)) (hm : 0 < most)
    (h : u.length ≤ room) : (fillUnits room most (u :: us)).2.length < (u :: us).length := by
  unfold fillUnits
  rw [if_pos ⟨hm, h⟩]
  have := (fillUnits_spec us (room - u.length) (most - 1)).2.1
  simp only [List.length_cons]
  omega

end Sys2Proof.Machine
end

