-- ==== Sys2Proof/Laws/Operands.lean ====
section
/-! SUPPORT. Lanes and words: a word reads back lane by lane, and two words with the same lanes are the same word
(spec/00_scope.md R9). -/

namespace Sys2Proof.Machine

/-- The bits of a lane. -/
theorem getLsbD_lane (w : Word) (k i : Nat) : (lane w k).getLsbD i = (decide (i < 8) && w.getLsbD (8 * k + i)) := by
  simp [lane]

@[simp] theorem lane_word_0 (l0 l1 l2 l3 : Byte) : lane (word l0 l1 l2 l3) 0 = l0 := by
  apply BitVec.eq_of_getLsbD_eq
  intro i hi
  rw [getLsbD_lane]
  simp [word, hi, show i < 32 by omega, show i < 16 by omega, show i < 24 by omega]

@[simp] theorem lane_word_1 (l0 l1 l2 l3 : Byte) : lane (word l0 l1 l2 l3) 1 = l1 := by
  apply BitVec.eq_of_getLsbD_eq
  intro i hi
  rw [getLsbD_lane]
  simp [word, hi, show 8 + i < 32 by omega, show 8 + i < 16 by omega, show 8 + i < 24 by omega]

@[simp] theorem lane_word_2 (l0 l1 l2 l3 : Byte) : lane (word l0 l1 l2 l3) 2 = l2 := by
  apply BitVec.eq_of_getLsbD_eq
  intro i hi
  rw [getLsbD_lane]
  simp [word, hi, show 16 + i < 32 by omega, show 16 + i < 24 by omega, show 16 + i - 8 = 8 + i by omega,
    BitVec.getLsbD_of_ge l0 (16 + i) (by omega)]

@[simp] theorem lane_word_3 (l0 l1 l2 l3 : Byte) : lane (word l0 l1 l2 l3) 3 = l3 := by
  apply BitVec.eq_of_getLsbD_eq
  intro i hi
  rw [getLsbD_lane]
  simp [word, hi, show 24 + i < 32 by omega, show 24 + i - 8 = 16 + i by omega, show 24 + i - 16 = 8 + i by omega,
    BitVec.getLsbD_of_ge l0 (24 + i) (by omega), BitVec.getLsbD_of_ge l1 (16 + i) (by omega)]

/-- A word is the word of its lanes. -/
theorem word_lanes (w : Word) : word (lane w 0) (lane w 1) (lane w 2) (lane w 3) = w := by
  apply BitVec.eq_of_getLsbD_eq
  intro i hi
  have h : i = 8 * (i / 8) + i % 8 := by omega
  have hk : i / 8 < 4 := by omega
  have hr : i % 8 < 8 := by omega
  generalize i / 8 = k at h hk
  generalize i % 8 = r at h hr
  subst h
  have e (u : Word) : u.getLsbD (8 * k + r) = (lane u k).getLsbD r := by rw [getLsbD_lane]; simp [hr]
  rw [e, e w]
  rcases (show k = 0 ∨ k = 1 ∨ k = 2 ∨ k = 3 by omega) with rfl | rfl | rfl | rfl <;> simp

@[simp] theorem lanes_zero (w : Word) : lanes w 0 = [] := rfl
@[simp] theorem lanes_one (w : Word) : lanes w 1 = [lane w 0] := rfl
@[simp] theorem lanes_two (w : Word) : lanes w 2 = [lane w 0, lane w 1] := rfl
@[simp] theorem lanes_three (w : Word) : lanes w 3 = [lane w 0, lane w 1, lane w 2] := rfl
@[simp] theorem lanes_four (w : Word) : lanes w 4 = [lane w 0, lane w 1, lane w 2, lane w 3] := rfl

@[simp] theorem length_lanes (w : Word) (n : Nat) : (lanes w n).length = n := by simp [lanes]

/-- `target_length` in one expression (R160). -/
theorem targetLength_eq (padded : Bool) (n : Nat) :
    targetLength padded n =
      (n / 3) * 4 + (if n % 3 = 0 then 0 else if padded then 4 else if n % 3 = 1 then 2 else 3) := by
  unfold targetLength tailLength
  have : n % 3 < 3 := Nat.mod_lt _ (by decide)
  generalize n % 3 = r at *
  rcases (show r = 0 ∨ r = 1 ∨ r = 2 by omega) with rfl | rfl | rfl <;> simp

/-- `extra` in one expression (R230). -/
theorem extraBytes_eq (r : Nat) : extraBytes r = if r = 2 then 1 else if r = 3 then 2 else 0 := by
  unfold extraBytes
  split <;> simp_all

end Sys2Proof.Machine
end

