-- ==== Sys2Proof/Laws/PerInstr.lean ====
section
/-! SUPPORT. The family EncodedWord, one lemma per command: its word is legal, and the decoder reads the command from it
(spec/30_encoding.md R101-R103). -/

namespace Sys2Proof.Laws

/-- The word of a command is legal and decodes to the command. -/
def EncodedWord.Statement (i : Instr) : Prop :=
  legal (encode i) = true ∧ decodeTableWord 32 (encode i).toNat = some i

theorem EncodedWord.nop : EncodedWord.Statement .nop := ⟨rfl, rfl⟩
theorem EncodedWord.encg : EncodedWord.Statement .encg := ⟨rfl, rfl⟩
theorem EncodedWord.enct1 : EncodedWord.Statement .enct1 := ⟨rfl, rfl⟩
theorem EncodedWord.enct2 : EncodedWord.Statement .enct2 := ⟨rfl, rfl⟩
theorem EncodedWord.decg : EncodedWord.Statement .decg := ⟨rfl, rfl⟩
theorem EncodedWord.decgL : EncodedWord.Statement .decgL := ⟨rfl, rfl⟩
theorem EncodedWord.dect2 : EncodedWord.Statement .dect2 := ⟨rfl, rfl⟩
theorem EncodedWord.dect3 : EncodedWord.Statement .dect3 := ⟨rfl, rfl⟩
theorem EncodedWord.elen : EncodedWord.Statement .elen := ⟨rfl, rfl⟩
theorem EncodedWord.dlen : EncodedWord.Statement .dlen := ⟨rfl, rfl⟩
theorem EncodedWord.clrs : EncodedWord.Statement .clrs := ⟨rfl, rfl⟩

end Sys2Proof.Laws
end

