-- ==== Sys2Proof/Laws/Tables.lean ====
section
/-! SUPPORT. The tables, read from their definitions once: which indices carry a byte, and the two readings of
`inAlphabet` that later proofs cite (spec/10_state.md R31-R34). -/

namespace Sys2Proof.Machine

/-- The indices that carry a byte (R32, R33). -/
theorem mem_indicesOf (alpha : Word) (c : Byte) (n : Nat) :
    n ∈ indicesOf alpha c ↔ n < 64 ∧ symbolByte alpha (BitVec.ofNat 6 n) = c := by
  simp [indicesOf]

/-- A byte is in the alphabet exactly when some index carries it (R32). -/
theorem inAlphabet_iff (alpha : Word) (c : Byte) : inAlphabet alpha c = true ↔ ∃ i : Index, symbolByte alpha i = c := by
  have h : inAlphabet alpha c = true ↔ indicesOf alpha c ≠ [] := by
    cases hl : indicesOf alpha c <;> simp [inAlphabet, hl]
  rw [h, List.ne_nil_iff_exists_cons]
  constructor
  · rintro ⟨n, l, hl⟩
    have := (mem_indicesOf alpha c n).1 (by simp [hl])
    exact ⟨_, this.2⟩
  · rintro ⟨i, hi⟩
    have hm : i.toNat ∈ indicesOf alpha c := (mem_indicesOf alpha c _).2 ⟨i.isLt, by simpa using hi⟩
    cases hl : indicesOf alpha c with
    | nil => simp [hl] at hm
    | cons n l => exact ⟨n, l, rfl⟩

/-- A symbol's byte is in the alphabet. -/
@[simp] theorem inAlphabet_symbolByte (alpha : Word) (i : Index) : inAlphabet alpha (symbolByte alpha i) = true :=
  (inAlphabet_iff alpha _).2 ⟨i, rfl⟩

/-- In unpadded mode no byte is padding (R34). -/
theorem isPad_unpadded {ctrl : Word} (h : padEn ctrl = false) (alpha : Word) (c : Byte) : isPad ctrl alpha c = false := by
  simp [isPad, h]

/-- A symbol is no OOB byte (R43). -/
@[simp] theorem isOob_symbolByte (ctrl alpha : Word) (i : Index) : isOob ctrl alpha (symbolByte alpha i) = false := by
  simp [isOob]

end Sys2Proof.Machine
end

