-- ==== Sys2Proof/Tests/Slice0.lean ====
section
/-! SUPPORT. The model's own tests: words written out from the spec's encodings, one or two vectors of
spec/95_test_vectors.md for each command, the smoke test of the well-formedness checks, and for each statement with
hypotheses a concrete case that meets them (for each clause of a statement with several). -/

namespace Sys2Proof.Tests

open Sys2Proof.Machine

/-- A state with the given CTRL, ALPHA, DIN and STATUS, DOUT 0xDEADBEEF and nothing on the bus. -/
def st (ctrl alpha din status : Word) : State :=
  { State.reset with ctrl := ctrl, alpha := alpha, din := din, dout := 0xDEADBEEF#32, status := status }

/-- The standard alphabet with padding '=' (R340). -/
def std : Word := 0x003D2F2B#32

/-- Whether a command leaves the given DOUT and STATUS. -/
def gives (o : Host.Outcome State Fault Refusal) (dout status : Word) : Bool :=
  match o with
  | .next t => t.dout == dout && t.status == status
  | _ => false

/-- Whether a step is refused. -/
def isRefused (o : Host.Outcome State Fault Refusal) : Bool :=
  match o with
  | .refused _ => true
  | _ => false

/-- Whether a step answers the given state. -/
def answers (o : Host.Outcome State Fault Refusal) (t : State) : Bool :=
  match o with
  | .next u => u == t
  | _ => false

/-! Decoding, from the fields OP, L and RSV of R100 and R101. -/

theorem test_decode_nop : decode 0b00000000000000000000000000000000#32 = .ok .nop := by decide
theorem test_decode_encg : decode 0b00000000000000000000000000000001#32 = .ok .encg := by decide
theorem test_decode_enct1 : decode 0b00000000000000000000000000000010#32 = .ok .enct1 := by decide
theorem test_decode_enct2 : decode 0b00000000000000000000000000000011#32 = .ok .enct2 := by decide
theorem test_decode_decg : decode 0b00000000000000000000000000000100#32 = .ok .decg := by decide
theorem test_decode_decgL : decode 0b00000000000000000000000000010100#32 = .ok .decgL := by decide
theorem test_decode_dect2 : decode 0b00000000000000000000000000000101#32 = .ok .dect2 := by decide
theorem test_decode_dect3 : decode 0b00000000000000000000000000000110#32 = .ok .dect3 := by decide
theorem test_decode_elen : decode 0b00000000000000000000000000001000#32 = .ok .elen := by decide
theorem test_decode_dlen : decode 0b00000000000000000000000000001001#32 = .ok .dlen := by decide
theorem test_decode_clrs : decode 0b00000000000000000000000000001111#32 = .ok .clrs := by decide

/-- 2.7 C-V1 to C-V6: reserved OP, stray L, reserved bits. -/
theorem test_decode_rejects :
    decode 0x00000007#32 = .error (.reservedOp 7) ∧ decode 0x0000000E#32 = .error (.reservedOp 14) ∧
      decode 0x00000010#32 = .error (.strayLast 0) ∧ decode 0x0000001F#32 = .error (.strayLast 15) ∧
      decode 0x00000020#32 = .error .reservedBits ∧ decode 0x80000000#32 = .error .reservedBits := by decide

theorem test_decodeTableWord :
    decodeTableWord 32 0x14 = some .decgL ∧ decodeTableWord 32 0x15 = none := by decide

theorem test_encode_words :
    Instr.all.map encode = [0x0#32, 0x1#32, 0x2#32, 0x3#32, 0x4#32, 0x14#32, 0x5#32, 0x6#32, 0x8#32, 0x9#32, 0xF#32] := by
  decide

/-! Well-formedness: an ill-formed word for each check (R102). -/

theorem test_wf_reserved : legalReserved 0x00000020#32 = false ∧ legal 0x00000020#32 = false := by decide
theorem test_wf_op : legalOp 0x0000000A#32 = false ∧ legal 0x0000000A#32 = false := by decide
theorem test_wf_last : legalLast 0x00000011#32 = false ∧ legal 0x00000011#32 = false := by decide
theorem test_wf_legal : legal 0x00000014#32 = true := by decide

/-! One or two vectors of spec/95_test_vectors.md for each command. -/

/-- G-V1. -/
theorem test_encg_hel : gives (exec .encg (st 1 std 0x006C6568#32 0)) 0x73564761#32 0x00000004#32 = true := by decide
/-- G-V6. -/
theorem test_encg_urlsafe :
    gives (exec .encg (st 1 0x003D5F2D#32 0x00BFFFFB#32 0)) 0x5F2D5F2D#32 0x00000004#32 = true := by decide
/-- T-V9. -/
theorem test_enct1_padded : gives (exec .enct1 (st 1 std 0xFFFFFF61#32 0)) 0x3D3D5159#32 0x00000004#32 = true := by decide
/-- T-V5. -/
theorem test_enct1_unpadded : gives (exec .enct1 (st 0 std 0x000000FF#32 0)) 0x0000772F#32 0x00000002#32 = true := by
  decide
/-- T-V15. -/
theorem test_enct2_padded : gives (exec .enct2 (st 1 std 0x00000F00#32 0)) 0x3D384141#32 0x00000004#32 = true := by decide
/-- T-V11. -/
theorem test_enct2_unpadded : gives (exec .enct2 (st 0 std 0x0000646C#32 0)) 0x00514762#32 0x00000003#32 = true := by
  decide
/-- L-V6. -/
theorem test_elen_range : gives (exec .elen (st 1 std 0xBFFFFFFE#32 0)) 0 0x00510058#32 = true := by decide
/-- L-V12. -/
theorem test_elen_largest : gives (exec .elen (st 0 std 0xBFFFFFFF#32 0)) 0xFFFFFFFF#32 0 = true := by decide
/-- D-V13. -/
theorem test_decg_padding_first : gives (exec .decg (st 3 std 0x41412A3D#32 0)) 0 0x003300B8#32 = true := by decide
/-- D-V33. -/
theorem test_decg_duplicate :
    gives (exec .decg (st 1 0x003D2F41#32 0x41414141#32 0)) 0x00BEEFFB#32 0x00000003#32 = true := by decide
/-- D-V28. -/
theorem test_decgL_permissive : gives (exec .decgL (st 1 std 0x3D2A5159#32 0)) 0x00000061#32 0x00020082#32 = true := by
  decide
/-- P4 line 11: the sticky fields of an earlier failure are kept. -/
theorem test_decgL_sticky :
    gives (exec .decgL (st 1 0x003D5F2D#32 0x3D2A5159#32 0x00430068#32)) 0x00000061#32 0x00430082#32 = true := by decide
/-- D-V41. -/
theorem test_dect2_discards : gives (exec .dect2 (st 0 std 0x00005259#32 0)) 0x00000061#32 0x00000001#32 = true := by
  decide
/-- D-V46. -/
theorem test_dect2_length_first : gives (exec .dect2 (st 3 std 0x00002A59#32 0)) 0 0x002300A8#32 = true := by decide
/-- D-V53. -/
theorem test_dect3_permissive : gives (exec .dect3 (st 0 std 0x002A4762#32 0)) 0x0000606C#32 0x00020082#32 = true := by
  decide
/-- D-V54. -/
theorem test_dect3_strict : gives (exec .dect3 (st 2 std 0x002A4762#32 0)) 0 0x004300C8#32 = true := by decide
/-- N-V16. -/
theorem test_dlen_largest : gives (exec .dlen (st 0 std 0xFFFFFFFF#32 0)) 0xBFFFFFFF#32 0 = true := by decide
/-- N-V1. -/
theorem test_dlen_empty : gives (exec .dlen (st 1 std 0 0)) 0 0x00110018#32 = true := by decide
/-- C-V8. -/
theorem test_nop : gives (exec .nop (st 1 std 0 0x00000004#32)) 0xDEADBEEF#32 0x00000004#32 = true := by decide
/-- C-V9. -/
theorem test_clrs : gives (exec .clrs (st 1 std 0 0x004300C8#32)) 0xDEADBEEF#32 0 = true := by decide

/-! Steps: the bus, illegal words, the write masks, reset. -/

/-- C-V7: FCAUSE keeps the first cause. -/
theorem test_step_illegal :
    gives (step ((st 1 std 0 0x004300C8#32).withFetchWord 32 0x00000007)) 0 0x00430068#32 = true := by decide

/-- P1 lines 4 and 5 on one bus, the first step. -/
theorem test_step_order :
    answers (step { st 1 std 0 0 with bus := [.access (.write 0x0C 4 0x61), commandEvent 0x2] })
      { st 1 std 0x61 0 with bus := [commandEvent 0x2] } = true := by decide

/-- P6 lines 1 and 3. -/
theorem test_step_masks :
    answers (step (enqueueFirst (.access (.write 0x00 4 0xFFFFFFFF#32)) (st 1 std 0 0))) (st 3 std 0 0) = true ∧
      answers (step (enqueueFirst (.access (.write 0x04 4 0xAABBCCDD#32)) (st 1 std 0 0))) (st 1 0x003B4C5D#32 0 0) = true := by
  decide

/-- P6 line 7: CMD reads 0. -/
theorem test_step_read_cmd :
    answers (step (enqueueFirst (.access (.read 0x08 4)) (st 1 std 5 0))) { st 1 std 5 0 with reads := [0] } = true := by
  decide

/-- R75: a 16-bit read and a misaligned write are refused. -/
theorem test_step_refuses :
    isRefused (step (enqueueFirst (.access (.read 0x10 2)) State.reset)) = true ∧
      isRefused (step (enqueueFirst (.access (.write 0x0D 4 0)) State.reset)) = true := by decide

/-- R341: a write in flight at reset leaves nothing. -/
theorem test_step_reset :
    answers (step (enqueueFirst (.reset (some (.write 0x0C 4 7))) (st 3 0 9 0x004300C8#32))) State.reset = true := by decide

/-- E-V1, E-V2: the vector strategies on `"hel"`. -/
theorem test_strategies_hel :
    spreadLanes 0x68 0x65 0x6C = [0x1A, 0x86, 0x95, 0x6C] ∧ maskedProducts (rearranged 0x68 0x65 0x6C) = 0x1A06152C#32 := by
  decide

/-! Host procedures and pseudo-instructions on the spec's own vectors and programs. -/

/-- Whether a host procedure yields the given value. -/
def yields {α : Type} [BEq α] (r : Run α) (a : α) : Bool :=
  match r with
  | .next (b, _) => b == a
  | _ => false

/-- The machine a host procedure leaves has the given DOUT and STATUS. -/
def leaves {α : Type} (r : Run α) (dout status : Word) : Bool :=
  match r with
  | .next (_, t) => t.dout == dout && t.status == status
  | _ => false

/-- `"hello world"`, its padded and its unpadded encode (V3, V5). -/
def helloBytes : List Byte := [0x68, 0x65, 0x6C, 0x6C, 0x6F, 0x20, 0x77, 0x6F, 0x72, 0x6C, 0x64]
def helloUnpadded : List Byte :=
  [0x61, 0x47, 0x56, 0x73, 0x62, 0x47, 0x38, 0x67, 0x64, 0x32, 0x39, 0x79, 0x62, 0x47, 0x51]

/-- V3 and V5. -/
theorem test_encode_hello :
    yields (encodeAll helloBytes State.reset) (helloUnpadded ++ [0x3D]) = true ∧
      yields (encodeAll helloBytes (st 0 std 0 0)) helloUnpadded = true := by decide

/-- V4 and V5: programs P2 and P3. -/
theorem test_decode_hello :
    yields (decodeAll (helloUnpadded ++ [0x3D]) State.reset) (.bytes helloBytes) = true ∧
      yields (decodeAll helloUnpadded (st 0 std 0 0)) (.bytes helloBytes) = true := by decide

/-- R240 and R247: a character above 0x7F is OOB, so a strict decode fails with SYMBOL and a permissive one goes on. -/
theorem test_decode_wide_char :
    yields (decodeString [0x59, 0x141] (st 2 std 0 0)) (.invalidEncoding 4) = true ∧
      yields (decodeString [0x59, 0x141] (st 0 std 0 0)) (.bytes [0x60]) = true := by decide

/-- The bytes of P5, `"abcdefgh"`. -/
def p5Bytes : List Byte := [0x61, 0x62, 0x63, 0x64, 0x65, 0x66, 0x67, 0x68]

/-- P5, a buffer of 4 bytes that each fill fills, and the end state; the same output of fills of one byte (R193). -/
theorem test_chunked_p5 :
    yields (encodeChunked 4 (fun _ => 7) p5Bytes State.reset)
        [0x59, 0x57, 0x4A, 0x6A, 0x5A, 0x47, 0x56, 0x6D, 0x5A, 0x32, 0x67, 0x3D] = true ∧
      leaves (encodeChunked 4 (fun _ => 7) p5Bytes State.reset) 0x3D67325A#32 0x00000004#32 = true ∧
      yields (encodeChunked 4 (fun _ => 0) p5Bytes State.reset)
        [0x59, 0x57, 0x4A, 0x6A, 0x5A, 0x47, 0x56, 0x6D, 0x5A, 0x32, 0x67, 0x3D] = true := by decide

/-- R197: a frame within range is encoded after its length is checked. -/
theorem test_encodeSized : yields (encodeSized [0x61] State.reset) (some [0x59, 0x51, 0x3D, 0x3D]) = true := by decide

/-- R111 on the examples of R131, R227 and R229, and `cfg` in unpadded strict mode. -/
theorem test_pseudo :
    leaves (runLines (Pseudo.enc3 0x68 0x65 0x6C).expand State.reset) 0x73564761#32 0x00000004#32 = true ∧
      leaves (runLines (Pseudo.decl 0x59 0x51 0x3D 0x3D).expand State.reset) 0x00000061#32 0x00000001#32 = true ∧
      leaves (runLines ((Pseudo.cfg 0x2D 0x5F none true).expand ++ (Pseudo.dec3 0x62 0x47 0x51).expand) State.reset)
        0x0000646C#32 0x00000002#32 = true := by decide

/-- The images that `cfg` writes (R111, R343). -/
theorem test_cfg_images :
    (Pseudo.cfg 0x2D 0x5F (some 0x3D) true).expand = [.wr .alpha 0x003D5F2D#32, .wr .ctrl 3] ∧
      (Pseudo.cfg 0x2B 0x2F none false).expand = [.wr .alpha 0x00002F2B#32, .wr .ctrl 0] := by decide

/-- R240 on a valid string of each mode and on one for each ground of rejection. -/
theorem test_validString :
    validString 1 std [0x59, 0x51, 0x3D, 0x3D] = true ∧ validString 0 std [0x59, 0x51] = true ∧
      validString 1 std [] = false ∧ validString 1 std [0x59, 0x51] = false ∧
      validString 1 std [0x59, 0x51, 0x3D, 0x51] = false ∧ validString 0 std [0x59] = false ∧
      validString 2 std [0x59, 0x2A] = false := by decide

/-! Witnesses: for each statement of Certificates/Slice0/Obligations.lean with hypotheses, a concrete case that meets
them together, and for a statement of several clauses one for each clause, at a boundary where it has one. -/

/-- The state of `st` with an event on the bus. -/
def onBus (e : BusEvent) (s : State) : State := { s with bus := [e] }

theorem witness_WordsDecodeAsTheOpcodeMap :
    (0x00000007#32).extractLsb' 0 4 ∈ [0x7#4, 0xA#4, 0xB#4, 0xC#4, 0xD#4, 0xE#4] ∧
      (0xFFFFFFFE#32).extractLsb' 0 4 ∈ [0x7#4, 0xA#4, 0xB#4, 0xC#4, 0xD#4, 0xE#4] := by decide

/-- Legal: 0x14, the one word with L. Illegal: a reserved OP, a stray L, a reserved bit. -/
theorem witness_LegalWordsRunAndIllegalWordsFail :
    legal 0x00000014#32 = true ∧ legal 0x0000000F#32 = true ∧ legal 0x00000007#32 = false ∧
      legal 0x00000015#32 = false ∧ legal 0x80000001#32 = false := by decide

theorem witness_StepRunsTheDecodedCommand :
    (onBus (.access (.write 0x08#5 4 0x14#32)) State.reset).bus = .access (.write 0x08#5 4 0x14#32) :: [] ∧
      decode 0x14#32 = .ok .decgL := by decide

theorem witness_PlacedWordRunsNext : decodeTableWord 32 0xF = some .clrs := by decide

/-- Each kind of access in flight, and one that R75 does not admit. -/
theorem witness_ResetActsBetweenAccesses :
    ∃ f g h k : Option HostAccess, f = none ∧ g = some (.write 0x0C 4 7) ∧ h = some (.read 0x10 4) ∧
      k = some (.read 0x01 2) := ⟨_, _, _, _, rfl, rfl, rfl, rfl⟩

/-- The first and the last offset of the window; a read that a step answers. -/
theorem witness_HostReadReturnsTheRegister :
    (0x00 % 4 = 0 ∧ 0x00 ≤ 0x1C) ∧ (0x1C % 4 = 0 ∧ 0x1C ≤ 0x1C) ∧
      ∃ e t, readEvent (Config.base + 0x1C) 4 = some e ∧ step (enqueueFirst e State.reset) = .next t :=
  ⟨by decide, by decide, _, _, congrArg (Option.map _) (windowOffset_base_add (by decide)), rfl⟩

theorem witness_HostWriteUpdatesTheRegister :
    (0x00 % 4 = 0 ∧ 0x00 ≤ 0x1C) ∧ (0x1C % 4 = 0 ∧ 0x1C ≤ 0x1C) ∧
      ∃ e t, writeEvent (Config.base + 0x00) 4 2 = some e ∧ step (enqueueFirst e State.reset) = .next t :=
  ⟨by decide, by decide, _, _, congrArg (Option.map _) (windowOffset_base_add (by decide)), rfl⟩

/-- A 16-bit access, a misaligned one, and the first address after the window. -/
theorem witness_UnsupportedAccessesAreRefused :
    (2 ≠ 4 ∨ (0x00 : Offset).toNat % 4 ≠ 0) ∧ (4 ≠ 4 ∨ (0x1F : Offset).toNat % 4 ≠ 0) ∧
      (Config.base + 32 < Config.base ∨ Config.base + 32 ≤ Config.base + 32) :=
  ⟨by decide, by decide, .inr (Nat.le_refl _)⟩

theorem witness_IdleBlockKeepsEverything : State.reset.bus = [] := rfl

/-- Both branches: an idle block, and an access that is refused. -/
theorem witness_OnlyUnsupportedAccessesStop :
    step State.reset = .next State.reset ∧
      step (onBus (.access (.read 0x02 4)) State.reset) = .refused (.unsupportedBusAccess (.read 0x02 4)) := ⟨rfl, rfl⟩

/-- A padded and an unpadded state: the hypotheses of ENCT1 and ENCT2. -/
theorem witness_EnctTails : padEn (st 1 std 0x61 0).ctrl = true ∧ padEn (st 0 std 0x61 0).ctrl = false := by decide

/-- The largest length that fits and the smallest that does not, in each mode. -/
theorem witness_ElenGivesTheTargetLength :
    targetLength (padEn 1#32) (0xBFFFFFFD#32).toNat ≤ 0xFFFFFFFF ∧
      0xFFFFFFFF < targetLength (padEn 1#32) (0xBFFFFFFE#32).toNat ∧
      targetLength (padEn 0#32) (0xBFFFFFFF#32).toNat ≤ 0xFFFFFFFF ∧
      0xFFFFFFFF < targetLength (padEn 0#32) (0xC0000000#32).toNat := by decide

/-- Whether the four lanes of DIN have the given padding. -/
def padsAre (s : State) (p : List Bool) : Bool := (List.range 4).map (operandIsPad s) == p

/-- No padding: OOB in permissive mode, none in strict mode, OOB in strict mode; then a padding symbol. -/
theorem witness_DecgDecodesAFullGroup :
    (padsAre (st 1 std 0x4141412A#32 0) [false, false, false, false] = true ∧ strict (1#32) = false) ∧
      (padsAre (st 3 std 0x41414141#32 0) [false, false, false, false] = true ∧
        operandOob (st 3 std 0x41414141#32 0) 4 = false) ∧
      (padsAre (st 3 std 0x2A414141#32 0) [false, false, false, false] = true ∧ strict (3#32) = true ∧
        operandOob (st 3 std 0x2A414141#32 0) 4 = true) ∧
      padsAre (st 1 std 0x3D414141#32 0) [false, false, false, true] = true := by decide

/-- The three patterns that pass, one of them with an OOB symbol in strict mode, and one that does not. -/
theorem witness_DecgLDecodesTheFinalGroup :
    (padsAre (st 1 std 0x41414141#32 0) [false, false, false, false] = true ∧ strict (1#32) = false) ∧
      (padsAre (st 3 std 0x3D414141#32 0) [false, false, false, true] = true ∧
        operandOob (st 3 std 0x3D414141#32 0) 4 = false) ∧
      (padsAre (st 1 std 0x3D3D4141#32 0) [false, false, true, true] = true ∧ strict (1#32) = false) ∧
      (padsAre (st 3 std 0x3D3D2A41#32 0) [false, false, true, true] = true ∧ strict (3#32) = true ∧
        operandOob (st 3 std 0x3D3D2A41#32 0) 4 = true) ∧
      padsAre (st 1 std 0x413D4141#32 0) [false, false, true, false] = true := by decide

theorem witness_DectTwoDecodesATwoSymbolTail :
    (padEn (0#32) = false ∧ strict (0#32) = false) ∧
      (padEn (2#32) = false ∧ strict (2#32) = true ∧ operandOob (st 2 std 0x00002A41#32 0) 2 = true) ∧
      operandOob (st 2 std 0x00004141#32 0) 2 = false ∧ padEn (1#32) = true := by decide

theorem witness_DectThreeDecodesAThreeSymbolTail :
    (padEn (0#32) = false ∧ strict (0#32) = false) ∧
      (padEn (2#32) = false ∧ strict (2#32) = true ∧ operandOob (st 2 std 0x002A4141#32 0) 3 = true) ∧
      operandOob (st 2 std 0x00414141#32 0) 3 = false ∧ padEn (1#32) = true := by decide

/-- Lengths 0; 1 and 4 in padded mode; 1, 2, 3 and 4 in unpadded mode. -/
theorem witness_DlenChecksTheLength :
    (0#32).toNat = 0 ∧ ((1#32).toNat ≠ 0 ∧ padEn (1#32) = true ∧ (1#32).toNat % 4 ≠ 0) ∧
      ((4#32).toNat ≠ 0 ∧ (4#32).toNat % 4 = 0) ∧ (padEn (0#32) = false ∧ (1#32).toNat % 4 = 1) ∧
      ((2#32).toNat ≠ 0 ∧ (2#32).toNat % 4 ≠ 1) ∧ ((3#32).toNat % 4 ≠ 1) ∧ ((4#32).toNat % 4 ≠ 1) := by decide

/-- The smallest word with OP = 0x0 that is not NOP. -/
theorem witness_NopChangesNothing : (0x00000010#32).extractLsb' 0 4 = 0x0#4 ∧ 0x00000010#32 ≠ 0 := by decide

theorem witness_ClrsClearsStatusOnly :
    Instr.nop ≠ Instr.clrs ∧ statusSerr 0x00430000#32 = true ∧ statusSoob 0x00430000#32 = true := by decide

theorem witness_CommandsChangeOnlyDoutAndStatus : Instr.decg ≠ Instr.clrs := by decide

/-- The table at the boundaries of its ranges. -/
theorem witness_EncodeTableIsTheAlphabet :
    [0, 25, 26, 51, 52, 61, 62, 63].map (fun i => encodeTable std (BitVec.ofNat 6 i)) =
      [0x41#7, 0x5A#7, 0x61#7, 0x7A#7, 0x30#7, 0x39#7, 0x2B#7, 0x2F#7] := by decide

theorem witness_AlphabetHoldsTheTableSymbols : inAlphabet std 0x2F = true ∧ 0x80 ≤ (0x80 : Byte).toNat := by decide

/-- A byte in the alphabet twice, one in it once, one outside. -/
theorem witness_DecodeValueIsTheHighestIndex :
    inAlphabet 0x003D2F41#32 0x41 = true ∧ inAlphabet std 0x41 = true ∧ inAlphabet std 0x80 = false := by decide

/-- A byte of each class; one that is in the alphabet and padding is padding (A as PADCH). -/
theorem witness_PaddingIsTestedBeforeTheAlphabet :
    classify 1 0x00412F2B#32 0x41 = .padding ∧ classify 0 0x00412F2B#32 0x41 = .alphabet ∧ classify 1 std 0x2A = .oob := by
  decide

/-- The standard alphabet is well formed in padded and in unpadded mode: the hypothesis of the round trips. -/
theorem witness_wellFormed (ctrl : Word) : WellFormedConfig ctrl std := by
  have nd : ((List.range 64).map fun i => encodeTable std (BitVec.ofNat 6 i)).Nodup := by decide
  refine ⟨fun i j hij h => hij (BitVec.eq_of_toNat_eq ?_), .inr (by decide)⟩
  exact List.inj_on_of_nodup_map nd (List.mem_range.2 i.isLt) (List.mem_range.2 j.isLt) (by simpa using h)

theorem witness_DecgLIsDecgInUnpaddedMode : padEn (st 0 std 0 0).ctrl = false := by decide

/-- Q and R differ in the low bits of their values only; the mode is padded. -/
theorem witness_DiscardedBitsAreNotChecked :
    (∀ c ∈ [(0x59 : Byte), 0x51, 0x51, 0x52, 0x52], inAlphabet std c = true ∧ isPad 1 std c = false) ∧
      (decodeValue std 0x51).toNat / 16 = (decodeValue std 0x52).toNat / 16 ∧
      (decodeValue std 0x51).toNat / 4 = (decodeValue std 0x52).toNat / 4 ∧ padEn (1#32) = true := by decide

theorem witness_ResultsDoNotDependOnStatus :
    (st 1 std 5 0).ctrl = (st 1 std 5 0x00430068#32).ctrl ∧ (st 1 std 5 0).alpha = (st 1 std 5 0x00430068#32).alpha ∧
      (st 1 std 5 0).din = (st 1 std 5 0x00430068#32).din ∧ (st 1 std 5 0).dout = (st 1 std 5 0x00430068#32).dout ∧
      st 1 std 5 0 ≠ st 1 std 5 0x00430068#32 ∧ Instr.encg ≠ Instr.nop := by decide

theorem witness_IgnoredLanesHaveNoEffect :
    (Instr.dect2, [0, 1]) ∈ [(Instr.encg, [0, 1, 2]), (.enct1, [0]), (.enct2, [0, 1]), (.dect2, [0, 1]),
        (.dect3, [0, 1, 2]), (.nop, []), (.clrs, [])] ∧
      ∀ k ∈ [0, 1], lane (st 0 std 0x00004141#32 0).din k = lane 0xFFFF4141#32 k := by decide

/-- A command with both sticky fields set. -/
theorem witness_StickyFieldsLastUntilCleared :
    ∃ t, step (onBus (commandEvent 1) (st 1 std 0 0x00430000#32)) = .next t ∧
      ¬nextIsReset (onBus (commandEvent 1) (st 1 std 0 0x00430000#32)) ∧
      ¬nextIsCommand (onBus (commandEvent 1) (st 1 std 0 0x00430000#32)) 0x0000000F#32 ∧
      statusSerr 0x00430000#32 = true ∧ statusSoob 0x00430000#32 = true := by
  refine ⟨_, rfl, ?_, ?_, by decide, by decide⟩
  · rintro ⟨f, rest, h⟩
    exact nomatch (List.cons.inj h).1
  · rintro ⟨rest, h⟩
    exact absurd (List.cons.inj h).1 (by decide)

/-- An illegal word, an ENCG that succeeds, then DECT2 in padded mode. -/
theorem witness_SecondFailureKeepsTheFirstCause :
    ∃ t v u, step (enqueueFirst (commandEvent 0x7#32) (onBus (commandEvent 0x1#32) State.reset)) = .next t ∧
      statusErr t.status = true ∧ UnclearedSteps t v ∧ statusErr v.status = false ∧
      step (enqueueFirst (commandEvent 0x5#32) v) = .next u ∧ statusErr u.status = true ∧
      statusSerr State.reset.status = false ∧ 0x7#32 ≠ 0 ∧ 0x5#32 ≠ 0 := by
  refine ⟨_, _, _, rfl, by decide, .tail .refl ?_ ?_ rfl, by decide, rfl, by decide, by decide, by decide, by decide⟩
  · rintro ⟨f, rest, h⟩
    exact nomatch (List.cons.inj h).1
  · rintro ⟨rest, h⟩
    exact absurd (List.cons.inj h).1 (by decide)

theorem witness_OnlyCommandsAndResetWriteResults :
    ∃ t, step (onBus (commandEvent 1) (st 1 std 0 0)) = .next t ∧ t.dout ≠ (onBus (commandEvent 1) (st 1 std 0 0)).dout :=
  ⟨_, rfl, by decide⟩

/-- A write of each operand register. -/
theorem witness_OnlyHostWritesAndResetChangeOperands :
    (∃ t, step (onBus (.access (.write 0x00 4 0)) State.reset) = .next t ∧ t.ctrl ≠ State.reset.ctrl) ∧
      (∃ t, step (onBus (.access (.write 0x04 4 0)) State.reset) = .next t ∧ t.alpha ≠ State.reset.alpha) ∧
      (∃ t, step (onBus (.access (.write 0x0C 4 7)) State.reset) = .next t ∧ t.din ≠ State.reset.din) ∧
      ¬nextIsReset (onBus (.access (.write 0x0C 4 7)) State.reset) := by
  refine ⟨⟨_, rfl, by decide⟩, ⟨_, rfl, by decide⟩, ⟨_, rfl, by decide⟩, ?_⟩
  rintro ⟨f, rest, h⟩
  exact nomatch (List.cons.inj h).1

/-- A legal state after a failure, and the command that clears it. -/
theorem witness_StepKeepsRegistersLegal :
    RegistersLegal { onBus (commandEvent 0xF) (st 3 std 9 0x004300C8#32) with dout := 0 } ∧
      ∃ t, step { onBus (commandEvent 0xF) (st 3 std 9 0x004300C8#32) with dout := 0 } = .next t :=
  ⟨⟨by decide, by decide, by decide, by decide, by decide, by decide, by decide, by decide, by decide, by decide,
    by decide⟩, _, rfl⟩

/-- A well-formed configuration in each mode: the round trips of one group and of a tail, the padding's place. -/
theorem witness_RoundTrip :
    (WellFormedConfig (st 1 std 7 0).ctrl (st 1 std 7 0).alpha ∧ padEn (st 1 std 7 0).ctrl = true) ∧
      WellFormedConfig (st 2 std 7 0).ctrl (st 2 std 7 0).alpha ∧ padEn (st 2 std 7 0).ctrl = false :=
  ⟨⟨witness_wellFormed _, by decide⟩, witness_wellFormed _, by decide⟩

theorem witness_UnpaddedEncodeDropsOnlyPadding :
    (st 0 std 0 0).alpha = (st 1 std 0 0).alpha ∧ padEn (st 0 std 0 0).ctrl = false ∧ padEn (st 1 std 0 0).ctrl = true := by
  decide

/-- The smallest buffers that make progress; a text of two characters. -/
theorem witness_ChunkedEncodes :
    3 ≤ 3 ∧ 6 ≤ 6 ∧ ∀ u ∈ [[(0x61 : Byte)], [0xF0, 0x9F, 0x98, 0x80]], u.length ≤ 4 := by decide

/-- The largest buffer that does not, and the empty one; a source that fits the former. -/
theorem witness_SmallBufferMakesNoProgress :
    (2 < 3 ∧ 2 < [(1 : Byte), 2, 3].length) ∧ (0 < 3 ∧ 0 < [(1 : Byte)].length) ∧ [(1 : Byte), 2].length ≤ 2 := by
  decide

/-- `"YQ=="` in strict padded mode meets none of the grounds of rejection. -/
theorem witness_DecodeRejectsExactlyInvalidStrings_valid :
    let str : List Byte := [0x59, 0x51, 0x3D, 0x3D]
    str.length < 2 ^ 32 ∧ str ≠ [] ∧ str.length % 4 = 0 ∧
      (∃ body k, k ≤ 2 ∧ (∀ c ∈ body, isPad 3 std c = false) ∧ str = body ++ List.replicate k (padByte std)) ∧
      ∀ c ∈ str, isPad 3 std c = true ∨ inAlphabet std c = true :=
  ⟨by decide, by decide, by decide, ⟨[0x59, 0x51], 2, by decide, by decide, by decide⟩, by decide⟩

/-- A string for each ground: a bad length in padded mode, one in unpadded mode, an OOB symbol in strict mode, and
padding in a wrong place, `"YQ=Q"`. -/
theorem witness_DecodeRejectsExactlyInvalidStrings_invalid :
    (padEn (1#32) = true ∧ [(0x59 : Byte), 0x51].length % 4 ≠ 0) ∧
      (padEn (0#32) = false ∧ [(0x59 : Byte)].length % 4 = 1) ∧
      (strict (2#32) = true ∧ isPad 2 std 0x2A = false ∧ inAlphabet std 0x2A = false) ∧
      ¬∃ body k, k ≤ 2 ∧ (∀ c ∈ body, isPad 1 std c = false) ∧
        [(0x59 : Byte), 0x51, 0x3D, 0x51] = body ++ List.replicate k (padByte std) := by
  refine ⟨by decide, by decide, by decide, ?_⟩
  rintro ⟨body, k, hk, hb, h⟩
  have hlast := congrArg List.getLast? h
  rcases (show k = 0 ∨ k = 1 ∨ k = 2 by omega) with rfl | rfl | rfl
  · have hm : (0x3D : Byte) ∈ body := by
      simp only [List.replicate_zero, List.append_nil] at h
      simp [← h]
    exact absurd (hb _ hm) (by decide)
  · simp [List.replicate] at hlast
    exact absurd hlast (by decide)
  · simp [List.replicate] at hlast
    exact absurd hlast (by decide)

/-- `"YQ=="` decodes. -/
theorem witness_NoPartialDecodeIsExposed :
    ∃ t out, decodeAll [0x59, 0x51, 0x3D, 0x3D] State.reset = .next (.bytes out, t) := ⟨_, _, rfl⟩

theorem witness_DecodeUndoesEncode :
    WellFormedConfig State.reset.ctrl State.reset.alpha ∧ [(0x61 : Byte)] ≠ [] ∧
      targetLength (padEn State.reset.ctrl) [(0x61 : Byte)].length < 2 ^ 32 :=
  ⟨witness_wellFormed _, by decide, by decide⟩

/-- The first and the last register, and a command. -/
theorem witness_HostLinesAreSingleAccesses :
    (Reg.ctrl, 0x00) ∈ [(Reg.ctrl, 0x00), (.alpha, 0x04), (.cmd, 0x08), (.din, 0x0C), (.dout, 0x10), (.status, 0x14)] ∧
      (Reg.status, 0x14) ∈ [(Reg.ctrl, 0x00), (.alpha, 0x04), (.cmd, 0x08), (.din, 0x0C), (.dout, 0x10), (.status, 0x14)] ∧
      (Instr.clrs, 0x0000000F#32) ∈ [(Instr.decgL, 0x00000014#32), (.clrs, 0x0000000F#32)] := by decide

/-- The largest code that is accepted and the smallest that is not. -/
theorem witness_ConstructSetsTheConfiguration :
    (0x7F ≤ 0x7F ∧ (none : Option Nat).getD 0 ≤ 0x7F ∧ (some 0x7F).getD 0 ≤ 0x7F) ∧
      (0x7F < 0x80 ∧ 0x7F < (some 0x80).getD 0) := by decide

end Sys2Proof.Tests
end

section
/-! SUPPORT. The decoder read backwards: a word that decodes to a command is that command's word
(spec/30_encoding.md R100-R103). -/

namespace Sys2Proof

/-- A word without reserved bits is its fields OP and L put together (R100). -/
theorem fields_join {w : Word} (h : reservedField w = 0#27) :
    (opField w).setWidth 32 ||| ((BitVec.ofBool (lastField w)).setWidth 32 <<< 4) = w := by
  apply BitVec.eq_of_getLsbD_eq
  intro i hi
  have hreserved : 5 ≤ i → w.getLsbD i = false := fun h5 => by
    have hbit : (reservedField w).getLsbD (i - 5) = false := by rw [h]; simp
    simpa [reservedField, show i - 5 < 27 by omega, show 5 + (i - 5) = i by omega] using hbit
  rcases Nat.lt_trichotomy i 4 with hlt | rfl | hgt
  · simp [opField, hlt, hi]
  · simp [opField, lastField]
  · rw [hreserved (by omega)]
    simp [opField, hi, show ¬ i < 4 by omega, show ¬ i - 4 = 0 by omega]

/-- The opcode map names a command at that command's own fields only (R101). -/
theorem fields_of_decodeFields {op : BitVec 4} {last : Bool} {i : Instr} (h : decodeFields op last = .ok i) :
    i.fields = (op, last) := by
  have table : ∀ (op : BitVec 4) (last : Bool), ∀ i ∈ Instr.all,
      decodeFields op last = .ok i → i.fields = (op, last) := by decide
  exact table op last i (by cases i <;> decide) h

/-- A word that decodes to a command is the command's word (R101, R102). -/
theorem eq_encode_of_decode {w : Word} {i : Instr} (h : decode w = .ok i) : w = encode i := by
  unfold decode at h
  split at h
  · cases h
  · next hr =>
    rw [encode, fields_of_decodeFields h]
    exact (fields_join (not_not.1 hr)).symm

end Sys2Proof
end

section
/-! SUPPORT. What a step does to the registers, whatever it does to the model's own bus fields: the cases from which
the rules about single registers follow (spec/10_state.md R22-R27, R44; spec/20_memory.md R73). -/

namespace Sys2Proof.Machine

/-- The five registers with storage are the same (R21). -/
structure SameRegisters (s t : State) : Prop where
  ctrl : t.ctrl = s.ctrl
  alpha : t.alpha = s.alpha
  din : t.din = s.din
  dout : t.dout = s.dout
  status : t.status = s.status

/-- No register write changes DOUT (R26, R73). -/
theorem writeSlot_keeps_dout (slot : Slot) (v : Word) (s : State) : (writeSlot slot v s).dout = s.dout := by
  cases slot <;> rfl

/-- No register write changes STATUS (R27, R73). -/
theorem writeSlot_keeps_status (slot : Slot) (v : Word) (s : State) : (writeSlot slot v s).status = s.status := by
  cases slot <;> rfl

/-- CTRL after a register write (R22, R73). -/
theorem writeSlot_ctrl_cases (slot : Slot) (v : Word) (s : State) :
    (writeSlot slot v s).ctrl = s.ctrl ∨ slot = .ctrl ∧ (writeSlot slot v s).ctrl = v &&& ctrlMask := by
  cases slot <;> simp

/-- ALPHA after a register write (R23, R73). -/
theorem writeSlot_alpha_cases (slot : Slot) (v : Word) (s : State) :
    (writeSlot slot v s).alpha = s.alpha ∨ slot = .alpha ∧ (writeSlot slot v s).alpha = v &&& alphaMask := by
  cases slot <;> simp

/-- DIN after a register write (R24, R73). -/
theorem writeSlot_din_cases (slot : Slot) (v : Word) (s : State) :
    (writeSlot slot v s).din = s.din ∨ slot = .din ∧ (writeSlot slot v s).din = v := by
  cases slot <;> simp

/-- What a register write leaves in the registers does not depend on the bus. -/
theorem writeSlot_sameRegisters_of_bus (slot : Slot) (v : Word) (s : State) (rest : List BusEvent) :
    SameRegisters (writeSlot slot v s) (writeSlot slot v { s with bus := rest }) := by
  cases slot <;> exact ⟨rfl, rfl, rfl, rfl, rfl⟩

/-- After the reset the registers are those of the reset state (R340, R341). -/
theorem performReset_registers (f : Option HostAccess) (s : State) :
    SameRegisters State.reset (performReset f s) := by
  rcases f with _ | ⟨_, _⟩ | ⟨_, _, _⟩ <;> exact ⟨rfl, rfl, rfl, rfl, rfl⟩

/-- What a step does to the registers: it keeps them, resets them, writes one of them from the host, or performs a
command. -/
theorem step_registers {s t : State} (h : step s = .next t) :
    SameRegisters s t ∨
    (nextIsReset s ∧ SameRegisters State.reset t) ∨
    (∃ slot v, nextIsWrite s slot v ∧ SameRegisters (writeSlot slot v s) t) ∨
    ∃ w rest, nextIsCommand s w ∧ performCommand w { s with bus := rest } = .next t := by
  rcases step_cases h with ⟨-, rfl⟩ | ⟨e, rest, hb, ⟨f, rfl, rfl⟩ | ⟨off, slot, rfl, -, rfl⟩ |
    ⟨off, slot, v, rfl, hs, -, rfl⟩ | ⟨off, w, rfl, hs, hc⟩⟩
  · exact .inl ⟨rfl, rfl, rfl, rfl, rfl⟩
  · exact .inr (.inl ⟨⟨f, rest, hb⟩, performReset_registers f _⟩)
  · exact .inl ⟨rfl, rfl, rfl, rfl, rfl⟩
  · obtain rfl := eq_offset_of_slotAt hs
    exact .inr (.inr (.inl ⟨slot, v, ⟨rest, hb⟩, writeSlot_sameRegisters_of_bus slot v s rest⟩))
  · obtain rfl := eq_offset_of_slotAt hs
    exact .inr (.inr (.inr ⟨w, rest, ⟨rest, hb⟩, hc⟩))

/-- What a write to CMD does: nothing (NOP), the clearing of STATUS (CLRS, whose word alone does it), a completion or a
failure. -/
theorem performCommand_effect {w : Word} {s t : State} (h : performCommand w s = .next t) :
    t = s ∨ (w = 0x0000000F#32 ∧ t = clearStatus s) ∨ (∃ r n o, n.toNat ≤ 4 ∧ t = complete r n o s) ∨
      ∃ c o, c ≠ .none ∧ t = fail c o s := by
  rcases performCommand_cases w s with ⟨i, hd, he⟩ | ⟨e, -, he⟩
  · rw [he] at h
    rcases exec_cases i s with ⟨-, hx⟩ | ⟨rfl, hx⟩ | ⟨-, -, ⟨r, n, o, hn, hx⟩ | ⟨c, o, hc, hx⟩⟩ <;>
      obtain rfl := Host.Outcome.next.inj (h.symm.trans hx)
    · exact .inl rfl
    · exact .inr (.inl ⟨eq_encode_of_decode hd, rfl⟩)
    · exact .inr (.inr (.inl ⟨r, n, o, hn, rfl⟩))
    · exact .inr (.inr (.inr ⟨c, o, hc, rfl⟩))
  · obtain rfl := Host.Outcome.next.inj (h.symm.trans he)
    exact .inr (.inr (.inr ⟨.illegal, false, by decide, rfl⟩))

/-- A completion leaves everything but DOUT and the fields of STATUS (R24, R41). -/
theorem CompletedWith.frame {s t : State} {r : Word} {n : BitVec 3} {o : Bool} (h : CompletedWith s t r n o) :
    SameBesidesResult s t ∧ SameStatusReserved s t := by
  obtain ⟨-, -, -, -, -, -, -, -, hreserved, hsame⟩ := h
  exact ⟨hsame, hreserved⟩

/-- A failure leaves everything but DOUT and the fields of STATUS (R24, R301). -/
theorem FailedWith.frame {s t : State} {c : BitVec 3} {o : Bool} (h : FailedWith s t c o) :
    SameBesidesResult s t ∧ SameStatusReserved s t := by
  obtain ⟨-, -, -, -, -, -, -, -, hreserved, hsame⟩ := h
  exact ⟨hsame, hreserved⟩

/-- A write to CMD leaves CTRL, ALPHA and DIN (R24). -/
theorem performCommand_same {w : Word} {s t : State} (h : performCommand w s = .next t) : SameBesidesResult s t := by
  rcases performCommand_effect h with rfl | ⟨-, rfl⟩ | ⟨r, n, o, -, rfl⟩ | ⟨c, o, -, rfl⟩
  · exact SameBesidesResult.refl _
  · exact clearStatus_same s
  · exact complete_same r n o s
  · exact fail_same c o s

end Sys2Proof.Machine
end

section
/-! The register invariant (spec/10_state.md R22, R23, R27, R45; spec/60_exceptions.md R300, R301): each effect a step
can have on the registers keeps it. -/

namespace Sys2Proof.Machine

/-- The invariant is about the registers only. -/
theorem RegistersLegal.of_sameRegisters {s t : State} (h : RegistersLegal s) (e : SameRegisters s t) :
    RegistersLegal t := by
  cases s
  cases t
  obtain ⟨rfl, rfl, rfl, rfl, rfl⟩ := e
  exact ⟨h.ctrl_reserved, h.alpha_reserved, h.status_reserved, h.count_le, h.cause_legal, h.fcause_legal, h.err_cause,
    h.err_result, h.err_sticky, h.oob_sticky, h.serr_fcause⟩

/-- The registers of the reset state meet the invariant (R340). -/
theorem registersLegal_reset : RegistersLegal State.reset := by
  constructor <;> decide

/-- What a write mask leaves has no bit outside it (R22, R23). -/
theorem and_mask_reserved (v mask : Word) : v &&& mask &&& ~~~mask = 0 := by
  rw [BitVec.and_assoc, BitVec.and_not_self]
  exact BitVec.and_zero

/-- A host write of a register keeps the invariant: the write masks clear the reserved bits (R73). -/
theorem RegistersLegal.of_writeSlot {s : State} (h : RegistersLegal s) (slot : Slot) (v : Word) :
    RegistersLegal (writeSlot slot v s) := by
  cases slot with
  | ctrl => exact { h with ctrl_reserved := and_mask_reserved v ctrlMask }
  | alpha => exact { h with alpha_reserved := and_mask_reserved v alphaMask }
  | din => exact { h with }
  | cmd | dout | status | rsv18 | rsv1C => exact h

/-- CLRS keeps the invariant: it leaves the STATUS of the reset state (R271). -/
theorem RegistersLegal.of_clearStatus {s : State} (h : RegistersLegal s) : RegistersLegal (clearStatus s) :=
  { registersLegal_reset with
    ctrl_reserved := h.ctrl_reserved
    alpha_reserved := h.alpha_reserved
    err_result := fun herr => absurd (a := statusErr 0 = true) herr (by decide) }

/-- A successful command keeps the invariant (R41). -/
theorem RegistersLegal.of_completedWith {s t : State} {r : Word} {n : BitVec 3} {o : Bool} (h : RegistersLegal s)
    (hn : n.toNat ≤ 4) (ht : CompletedWith s t r n o) : RegistersLegal t := by
  obtain ⟨-, hcount, herr, hcause, hoob, hsoob, hserr, hfcause, hreserved, hctrl, halpha, -⟩ := ht
  exact {
    ctrl_reserved := hctrl ▸ h.ctrl_reserved
    alpha_reserved := halpha ▸ h.alpha_reserved
    status_reserved := hreserved.trans h.status_reserved
    count_le := hcount ▸ hn
    cause_legal := by simp [hcause]
    fcause_legal := hfcause ▸ h.fcause_legal
    err_cause := by simp [herr, hcause]
    err_result := by simp [herr]
    err_sticky := by simp [herr]
    oob_sticky := by simp +contextual [hoob, hsoob]
    serr_fcause := by rw [hserr, hfcause, h.serr_fcause] }

/-- A failing command keeps the invariant: its cause is a code of R300 other than 0 and 7 (R301, 93 I12). -/
theorem RegistersLegal.of_failedWith {s t : State} {code : BitVec 3} {o : Bool} (h : RegistersLegal s)
    (h0 : code ≠ 0) (h7 : code ≠ 7) (ht : FailedWith s t code o) : RegistersLegal t := by
  obtain ⟨hdout, hcount, herr, hcause, hoob, hserr, hsoob, hfcause, hreserved, hctrl, halpha, -⟩ := ht
  have hfirst : statusFcause t.status ≠ 0 ∧ statusFcause t.status ≠ 7 := by
    rw [hfcause]
    split
    · next hs => exact ⟨fun hf => by simp [h.serr_fcause.2 hf] at hs, h.fcause_legal⟩
    · exact ⟨h0, h7⟩
  exact {
    ctrl_reserved := hctrl ▸ h.ctrl_reserved
    alpha_reserved := halpha ▸ h.alpha_reserved
    status_reserved := hreserved.trans h.status_reserved
    count_le := by simp [hcount]
    cause_legal := hcause ▸ h7
    fcause_legal := hfirst.2
    err_cause := by rw [herr, hcause]; exact iff_of_false nofun h0
    err_result := fun _ => ⟨hcount, hdout⟩
    err_sticky := fun _ => hserr
    oob_sticky := by simp +contextual [hoob, hsoob]
    serr_fcause := by rw [hserr]; exact iff_of_false nofun hfirst.1 }

/-- Only the absence of a failure has the code 0 (R300). -/
theorem Cause.code_ne_zero {c : Cause} (h : c ≠ .none) : c.code ≠ 0 := by
  cases c with
  | none => exact absurd rfl h
  | empty | length | padding | symbol | range | illegal => decide

/-- No cause has the reserved code (R300, 93 I12). -/
theorem Cause.code_ne_seven (c : Cause) : c.code ≠ 7 := by
  cases c <;> decide

/-- A write to CMD keeps the invariant. -/
theorem RegistersLegal.of_performCommand {w : Word} {s t : State} (h : RegistersLegal s)
    (hc : performCommand w s = .next t) : RegistersLegal t := by
  rcases performCommand_effect hc with rfl | ⟨-, rfl⟩ | ⟨r, n, o, hn, rfl⟩ | ⟨c, o, hne, rfl⟩
  · exact h
  · exact h.of_clearStatus
  · exact h.of_completedWith hn (complete_completedWith r n o s)
  · exact h.of_failedWith (Cause.code_ne_zero hne) c.code_ne_seven (fail_failedWith c o s)

/-- Settles O43: every effect a step can have on the registers keeps the invariant. -/
theorem stepKeepsRegistersLegal : Obligations.StepKeepsRegistersLegal := by
  intro s t h hstep
  rcases step_registers hstep with hsame | ⟨-, hreset⟩ | ⟨slot, v, -, hwrite⟩ | ⟨w, rest, -, hc⟩
  · exact h.of_sameRegisters hsame
  · exact registersLegal_reset.of_sameRegisters hreset
  · exact (h.of_writeSlot slot v).of_sameRegisters hwrite
  · exact (h.of_sameRegisters (t := { s with bus := rest }) ⟨rfl, rfl, rfl, rfl, rfl⟩).of_performCommand hc

end Sys2Proof.Machine
end

section
/-! What commands and steps leave unchanged, and what a command's result depends on (spec/10_state.md R24-R28, R44,
R46; spec/60_exceptions.md R302). -/

namespace Sys2Proof.Machine

/-- Settles O24, by the cases of a command. -/
theorem commandsChangeOnlyDoutAndStatus : Obligations.CommandsChangeOnlyDoutAndStatus := by
  intro i s
  rcases exec_cases i s with ⟨-, h⟩ | ⟨hi, h⟩ | ⟨-, -, ⟨r, n, o, -, h⟩ | ⟨c, o, -, h⟩⟩
  · exact ⟨_, h, SameBesidesResult.refl s, fun _ => rfl⟩
  · exact ⟨_, h, clearStatus_same s, fun hne => absurd hi hne⟩
  · obtain ⟨hsame, hreserved⟩ := (complete_completedWith r n o s).frame
    exact ⟨_, h, hsame, fun _ => hreserved⟩
  · obtain ⟨hsame, hreserved⟩ := (fail_failedWith c o s).frame
    exact ⟨_, h, hsame, fun _ => hreserved⟩

/-- Settles O36: what a command other than NOP and CLRS ends with is fixed by CTRL, ALPHA and DIN. -/
theorem resultsDoNotDependOnStatus : Obligations.ResultsDoNotDependOnStatus := by
  intro i s s' hctrl halpha hdin hdout
  by_cases hnop : i = .nop
  · subst hnop
    exact ⟨s, s', rfl, rfl, hdout, fun h => absurd rfl h⟩
  by_cases hclrs : i = .clrs
  · subst hclrs
    exact ⟨clearStatus s, clearStatus s', rfl, rfl, hdout, fun _ => ⟨rfl, rfl, rfl, rfl⟩⟩
  rcases exec_cases_of_operands i hnop hclrs s'.ctrl s'.alpha s'.din with ⟨r, n, o, -, h⟩ | ⟨c, o, -, h⟩
  · refine ⟨_, _, h s hctrl halpha hdin, h s' rfl rfl rfl, rfl, fun _ => ?_⟩
    obtain ⟨-, h1, h2, h3, h4, -⟩ := complete_completedWith r n o s
    obtain ⟨-, h1', h2', h3', h4', -⟩ := complete_completedWith r n o s'
    exact ⟨h1.trans h1'.symm, h2.trans h2'.symm, h3.trans h3'.symm, h4.trans h4'.symm⟩
  · refine ⟨_, _, h s hctrl halpha hdin, h s' rfl rfl rfl, rfl, fun _ => ?_⟩
    obtain ⟨-, h1, h2, h3, h4, -⟩ := fail_failedWith c o s
    obtain ⟨-, h1', h2', h3', h4', -⟩ := fail_failedWith c o s'
    exact ⟨h1.trans h1'.symm, h2.trans h2'.symm, h3.trans h3'.symm, h4.trans h4'.symm⟩

/-- The sticky fields of `s` are still there in `t`: SERR and SOOB where they were set, and FCAUSE where SERR was
(R44). -/
def StickyKept (s t : State) : Prop :=
  (statusSerr s.status = true → statusSerr t.status = true ∧ statusFcause t.status = statusFcause s.status) ∧
    (statusSoob s.status = true → statusSoob t.status = true)

theorem StickyKept.of_status_eq {s t : State} (h : t.status = s.status) : StickyKept s t := by
  simp +contextual [StickyKept, h]

/-- A completion keeps the sticky fields (R41). -/
theorem CompletedWith.stickyKept {s t : State} {r : Word} {n : BitVec 3} {o : Bool} (h : CompletedWith s t r n o) :
    StickyKept s t := by
  obtain ⟨-, -, -, -, -, hsoob, hserr, hfcause, -⟩ := h
  simp +contextual [StickyKept, hsoob, hserr, hfcause]

/-- A failure keeps the sticky fields (R301). -/
theorem FailedWith.stickyKept {s t : State} {c : BitVec 3} {o : Bool} (h : FailedWith s t c o) : StickyKept s t := by
  obtain ⟨-, -, -, -, -, hserr, hsoob, hfcause, -⟩ := h
  simp +contextual [StickyKept, hsoob, hserr, hfcause]

/-- A write to CMD of another word than that of CLRS keeps the sticky fields (R44). -/
theorem performCommand_stickyKept {w : Word} {s t : State} (hw : w ≠ 0x0000000F#32)
    (h : performCommand w s = .next t) : StickyKept s t := by
  rcases performCommand_effect h with rfl | ⟨hclrs, -⟩ | ⟨r, n, o, -, rfl⟩ | ⟨c, o, -, rfl⟩
  · exact .of_status_eq rfl
  · exact absurd hclrs hw
  · exact (complete_completedWith r n o s).stickyKept
  · exact (fail_failedWith c o s).stickyKept

/-- Settles O38: a step that is no reset keeps STATUS or is a write to CMD, and only the word of CLRS clears. -/
theorem stickyFieldsLastUntilCleared : Obligations.StickyFieldsLastUntilCleared := by
  intro s t hstep hreset hclrs
  rcases step_registers hstep with hsame | ⟨hr, -⟩ | ⟨slot, v, -, hwrite⟩ | ⟨w, rest, hcmd, hc⟩
  · exact StickyKept.of_status_eq hsame.status
  · exact absurd hr hreset
  · exact StickyKept.of_status_eq (hwrite.status.trans (writeSlot_keeps_status slot v s))
  · have hkept : StickyKept { s with bus := rest } t := performCommand_stickyKept (fun hw => hclrs (hw ▸ hcmd)) hc
    exact hkept

/-- Settles O40, by the cases of a step: no register write reaches DOUT or STATUS. -/
theorem onlyCommandsAndResetWriteResults : Obligations.OnlyCommandsAndResetWriteResults := by
  intro s t hstep hchanged
  rcases step_registers hstep with hsame | ⟨hr, -⟩ | ⟨slot, v, -, hwrite⟩ | ⟨w, -, hcmd, -⟩
  · exact absurd hchanged (by simp [hsame.dout, hsame.status])
  · exact .inl hr
  · exact absurd hchanged
      (by simp [hwrite.dout, hwrite.status, writeSlot_keeps_dout, writeSlot_keeps_status])
  · exact .inr ⟨w, hcmd⟩

/-- Settles O41, by the cases of a step: no command reaches an operand register. -/
theorem onlyHostWritesAndResetChangeOperands : Obligations.OnlyHostWritesAndResetChangeOperands := by
  intro s t hstep hreset
  rcases step_registers hstep with hsame | ⟨hr, -⟩ | ⟨slot, v, hnext, hwrite⟩ | ⟨w, rest, -, hc⟩
  · exact ⟨fun h => absurd hsame.ctrl h, fun h => absurd hsame.alpha h, fun h => absurd hsame.din h⟩
  · exact absurd hr hreset
  · refine ⟨fun h => ?_, fun h => ?_, fun h => ?_⟩
    · rw [hwrite.ctrl] at h ⊢
      obtain ⟨rfl, hv⟩ := (writeSlot_ctrl_cases slot v s).resolve_left h
      exact ⟨v, hnext, hv⟩
    · rw [hwrite.alpha] at h ⊢
      obtain ⟨rfl, hv⟩ := (writeSlot_alpha_cases slot v s).resolve_left h
      exact ⟨v, hnext, hv⟩
    · rw [hwrite.din] at h ⊢
      obtain ⟨rfl, hv⟩ := (writeSlot_din_cases slot v s).resolve_left h
      exact ⟨v, hnext, hv⟩
  · obtain ⟨hctrl, halpha, hdin, -⟩ := performCommand_same hc
    exact ⟨fun h => absurd hctrl h, fun h => absurd halpha h, fun h => absurd hdin h⟩

/-- A write to CMD of a word that decodes to a command is that command (R103). -/
theorem performCommand_of_decode {w : Word} {i : Instr} (h : decode w = .ok i) (s : State) :
    performCommand w s = exec i s := by
  simp [performCommand, h]

/-- Settles O4: the step takes the write off the bus and the dispatch adds nothing. -/
theorem stepRunsTheDecodedCommand : Obligations.StepRunsTheDecodedCommand := by
  intro s rest w i hbus hdecode
  rw [step_event s _ rest hbus]
  exact performCommand_of_decode hdecode _

/-- A table word of 32 bits is a command exactly as the decoder reads it (R106). -/
theorem decode_of_decodeTableWord {nbits w : Nat} {i : Instr} (h : decodeTableWord nbits w = some i) :
    decode (BitVec.ofNat 32 (w % 2 ^ nbits)) = .ok i := by
  unfold decodeTableWord at h
  split at h
  · split at h
    · next hd => rw [hd, Option.some.inj h]
    · cases h
  · cases h

/-- Settles O5: placing the word and taking it off the bus again leaves the state. -/
theorem placedWordRunsNext : Obligations.PlacedWordRunsNext := by
  intro s w i h
  rw [State.withFetchWord, step_enqueueFirst]
  exact performCommand_of_decode (decode_of_decodeTableWord h) s

/-- Settles O11: the law of the idle step. -/
theorem idleBlockKeepsEverything : Obligations.IdleBlockKeepsEverything := step_idle

end Sys2Proof.Machine
end

section
/-! The tables (spec/10_state.md R30-R38): the encode table's symbols, the alphabet, and the decode table as its
inverse. -/

namespace Sys2Proof.Machine

/-- The fixed part of the encode table does not depend on ALPHA (R30, R31). -/
theorem encodeTable_fixed (alpha : Word) {i : Index} (h : i.toNat ≤ 61) :
    (encodeTable alpha i).toNat = fixedSymbol i.toNat := by
  rw [encodeTable, if_pos h, BitVec.toNat_ofNat]
  unfold fixedSymbol
  split_ifs <;> omega

/-- Settles O25, range by range of the index. -/
theorem encodeTableIsTheAlphabet : Obligations.EncodeTableIsTheAlphabet := by
  intro alpha i
  refine ⟨fun h => ?_, fun h h' => ?_, fun h h' => ?_, fun h => ?_, fun h => ?_⟩
  · rw [encodeTable_fixed _ (by omega), fixedSymbol, if_pos h]
  · rw [encodeTable_fixed _ (by omega), fixedSymbol, if_neg (by omega), if_pos h']
  · rw [encodeTable_fixed _ h', fixedSymbol, if_neg (by omega), if_neg (by omega)]
  · simp [encodeTable, h, sym62, getField]
  · simp [encodeTable, h, sym63, getField]

/-- A symbol is a 7-bit character (R5). -/
theorem symbolByte_lt (alpha : Word) (i : Index) : (symbolByte alpha i).toNat < 0x80 := by
  rw [symbolByte, zext8, BitVec.toNat_setWidth_of_le (by decide)]
  exact (encodeTable alpha i).isLt

/-- Settles O26: every symbol is below 0x80. -/
theorem alphabetHoldsTheTableSymbols : Obligations.AlphabetHoldsTheTableSymbols := by
  intro alpha c
  refine ⟨inAlphabet_iff alpha c, fun hc => Bool.eq_false_iff.2 fun h => ?_⟩
  obtain ⟨i, rfl⟩ := (inAlphabet_iff alpha c).1 h
  exact absurd (symbolByte_lt alpha i) (by omega)

/-- The decode value of a byte that some index carries is the greatest of the indices that carry it (R33). -/
theorem decodeValue_spec {alpha : Word} {c : Byte} (h : inAlphabet alpha c = true) :
    symbolByte alpha (decodeValue alpha c) = c ∧
      ∀ i : Index, symbolByte alpha i = c → i.toNat ≤ (decodeValue alpha c).toNat := by
  obtain ⟨j, hj⟩ := (inAlphabet_iff alpha c).1 h
  have mem (i : Index) (hi : symbolByte alpha i = c) : i.toNat ∈ indicesOf alpha c :=
    (mem_indicesOf alpha c _).2 ⟨i.isLt, by simpa using hi⟩
  cases hmax : (indicesOf alpha c).max? with
  | none =>
    have hmem := mem j hj
    rw [List.max?_eq_none_iff.1 hmax] at hmem
    exact absurd hmem List.not_mem_nil
  | some m =>
    obtain ⟨hm, hle⟩ := List.max?_eq_some_iff.1 hmax
    obtain ⟨hlt, hsym⟩ := (mem_indicesOf alpha c m).1 hm
    have hd : decodeValue alpha c = BitVec.ofNat 6 m := by
      simp [decodeValue, List.foldl_max, hmax]
    have hn : (decodeValue alpha c).toNat = m := by
      rw [hd, BitVec.toNat_ofNat, Nat.mod_eq_of_lt hlt]
    exact ⟨hd ▸ hsym, fun i hi => hn ▸ hle _ (mem i hi)⟩

/-- The decode value of a byte outside the alphabet is 0 (R33). -/
theorem decodeValue_eq_zero {alpha : Word} {c : Byte} (h : inAlphabet alpha c = false) : decodeValue alpha c = 0 := by
  have hnil : indicesOf alpha c = [] := by simpa [inAlphabet] using h
  simp [decodeValue, hnil]

/-- Settles O27, from the specification of the decode value on either side of the alphabet. -/
theorem decodeValueIsTheHighestIndex : Obligations.DecodeValueIsTheHighestIndex :=
  fun _ _ => ⟨decodeValue_spec, decodeValue_eq_zero⟩

/-- Under a well-formed configuration two indices with the same symbol byte are the same (R37). -/
theorem WellFormedConfig.symbolByte_inj {ctrl alpha : Word} (h : WellFormedConfig ctrl alpha) {i j : Index}
    (e : symbolByte alpha i = symbolByte alpha j) : i = j := by
  obtain ⟨hinj, -⟩ := h
  by_contra hne
  refine hinj i j hne ?_
  simpa [symbolByte, zext8] using congrArg (BitVec.setWidth 7) e

/-- Under a well-formed configuration a symbol's byte is not padding (R37). -/
theorem WellFormedConfig.isPad_symbolByte {ctrl alpha : Word} (h : WellFormedConfig ctrl alpha) (i : Index) :
    isPad ctrl alpha (symbolByte alpha i) = false := by
  obtain ⟨-, hpad | hpad⟩ := h
  · exact isPad_unpadded hpad alpha _
  · have hne : symbolByte alpha i ≠ padByte alpha := fun e => by simp [← e] at hpad
    simp [isPad, hne]

/-- Under a well-formed configuration an index is the decode value of its symbol (R38). -/
theorem WellFormedConfig.decodeValue_symbolByte {ctrl alpha : Word} (h : WellFormedConfig ctrl alpha) (i : Index) :
    decodeValue alpha (symbolByte alpha i) = i :=
  h.symbolByte_inj (decodeValue_spec (inAlphabet_symbolByte alpha i)).1

/-- Settles O29: the decode value carries the symbol, and only one index does. -/
theorem decodeTableInvertsEncodeTable : Obligations.DecodeTableInvertsEncodeTable :=
  fun _ _ h i => h.decodeValue_symbolByte i

/-- A byte is padding in padded mode only, where it is the padding symbol (R34). -/
theorem isPad_iff (ctrl alpha : Word) (c : Byte) :
    isPad ctrl alpha c = true ↔ padEn ctrl = true ∧ c = padByte alpha := by
  simp [isPad]

/-- The three classes of a symbol byte, by the two tests in their order (R220). -/
theorem classify_spec (ctrl alpha : Word) (c : Byte) :
    (classify ctrl alpha c = .padding ↔ isPad ctrl alpha c = true) ∧
    (classify ctrl alpha c = .alphabet ↔ isPad ctrl alpha c = false ∧ inAlphabet alpha c = true) ∧
    (classify ctrl alpha c = .oob ↔ isPad ctrl alpha c = false ∧ inAlphabet alpha c = false) := by
  unfold classify
  cases isPad ctrl alpha c <;> cases inAlphabet alpha c <;> decide

/-- The OOB test finds the bytes of class 3 (R43, R220). -/
theorem isOob_iff_classify (ctrl alpha : Word) (c : Byte) :
    isOob ctrl alpha c = true ↔ classify ctrl alpha c = .oob := by
  obtain ⟨-, -, hoob⟩ := classify_spec ctrl alpha c
  simp [isOob, hoob, and_comm]

/-- Settles O28, from the classes of a single symbol. -/
theorem paddingIsTestedBeforeTheAlphabet : Obligations.PaddingIsTestedBeforeTheAlphabet := by
  intro ctrl alpha c cs
  obtain ⟨hpadding, halphabet, hoob⟩ := classify_spec ctrl alpha c
  refine ⟨isPad_iff ctrl alpha c, hpadding, halphabet, hoob, ?_⟩
  simp only [anyOob, List.any_eq_true, isOob_iff_classify]

end Sys2Proof.Machine
end

section
/-! The round trip of a full group (spec/10_state.md R38; spec/41_encode_group.md R130; spec/44_decode.md R222): the
indices and the bytes as sums and quotients, in which the one undoes the other. -/

namespace Sys2Proof.Machine

/-- A shifted number and one that fits below it, put together with OR. -/
theorem shiftLeft_or_eq {b k : Nat} (a : Nat) (h : b < 2 ^ k) : a <<< k ||| b = a * 2 ^ k + b := by
  rw [← Nat.shiftLeft_add_eq_or_of_lt h, Nat.shiftLeft_eq]

theorem index0_toNat (b0 : Byte) : (index0 b0).toNat = b0.toNat / 4 := by
  have := b0.isLt
  simp only [index0, BitVec.toNat_ofNat, Nat.shiftRight_eq_div_pow]
  omega

theorem index1_toNat (b0 b1 : Byte) : (index1 b0 b1).toNat = b0.toNat % 4 * 16 + b1.toNat / 16 := by
  have := b1.isLt
  have hlow : b0.toNat <<< 4 &&& 0x3F = (b0.toNat % 4) <<< 4 := by
    rw [Nat.and_two_pow_sub_one_eq_mod _ 6, Nat.shiftLeft_eq, Nat.shiftLeft_eq]
    omega
  rw [index1, hlow, BitVec.toNat_ofNat, Nat.shiftRight_eq_div_pow, shiftLeft_or_eq _ (by omega)]
  omega

theorem index2_toNat (b1 b2 : Byte) : (index2 b1 b2).toNat = b1.toNat % 16 * 4 + b2.toNat / 64 := by
  have := b2.isLt
  have hlow : b1.toNat <<< 2 &&& 0x3F = (b1.toNat % 16) <<< 2 := by
    rw [Nat.and_two_pow_sub_one_eq_mod _ 6, Nat.shiftLeft_eq, Nat.shiftLeft_eq]
    omega
  rw [index2, hlow, BitVec.toNat_ofNat, Nat.shiftRight_eq_div_pow, shiftLeft_or_eq _ (by omega)]
  omega

theorem index3_toNat (b2 : Byte) : (index3 b2).toNat = b2.toNat % 64 := by
  rw [index3, BitVec.toNat_ofNat, Nat.and_two_pow_sub_one_eq_mod _ 6, Nat.mod_mod]

theorem byte0_toNat (v0 v1 : Index) : (byte0 v0 v1).toNat = v0.toNat * 4 + v1.toNat / 16 := by
  have := v0.isLt
  have := v1.isLt
  rw [byte0, BitVec.toNat_ofNat, Nat.and_two_pow_sub_one_eq_mod _ 8, Nat.shiftRight_eq_div_pow,
    shiftLeft_or_eq _ (by omega)]
  omega

theorem byte1_toNat (v1 v2 : Index) : (byte1 v1 v2).toNat = v1.toNat % 16 * 16 + v2.toNat / 4 := by
  have := v2.isLt
  rw [byte1, BitVec.toNat_ofNat, Nat.and_two_pow_sub_one_eq_mod _ 8, Nat.shiftRight_eq_div_pow,
    shiftLeft_or_eq _ (by omega)]
  omega

theorem byte2_toNat (v2 v3 : Index) : (byte2 v2 v3).toNat = v2.toNat % 4 * 64 + v3.toNat := by
  have := v3.isLt
  rw [byte2, BitVec.toNat_ofNat, Nat.and_two_pow_sub_one_eq_mod _ 8, shiftLeft_or_eq _ (by omega)]
  omega

/-- The first byte comes back from the first two indices (R130, R222). -/
theorem byte0_index (b0 b1 : Byte) : byte0 (index0 b0) (index1 b0 b1) = b0 := by
  have := b1.isLt
  apply BitVec.eq_of_toNat_eq
  rw [byte0_toNat, index0_toNat, index1_toNat]
  omega

/-- The second byte comes back from the middle two indices (R130, R222). -/
theorem byte1_index (b0 b1 b2 : Byte) : byte1 (index1 b0 b1) (index2 b1 b2) = b1 := by
  have := b1.isLt
  have := b2.isLt
  apply BitVec.eq_of_toNat_eq
  rw [byte1_toNat, index1_toNat, index2_toNat]
  omega

/-- The third byte comes back from the last two indices (R130, R222). -/
theorem byte2_index (b1 b2 : Byte) : byte2 (index2 b1 b2) (index3 b2) = b2 := by
  have := b2.isLt
  apply BitVec.eq_of_toNat_eq
  rw [byte2_toNat, index2_toNat, index3_toNat]
  omega

/-- DECG on the symbols of four indices, under a well-formed configuration: the three bytes of the indices, whether
decode is strict or not (R222, R226). -/
theorem exec_decg_symbols {s : State} (h : WellFormedConfig s.ctrl s.alpha) {i0 i1 i2 i3 : Index}
    (hd : s.din =
      word (symbolByte s.alpha i0) (symbolByte s.alpha i1) (symbolByte s.alpha i2) (symbolByte s.alpha i3)) :
    exec .decg s = .next (complete (word (byte0 i0 i1) (byte1 i1 i2) (byte2 i2 i3) 0) 3 false s) := by
  simp [exec, execDecg, hd, h.isPad_symbolByte, h.decodeValue_symbolByte, anyOob, finishDecode]

/-- ENCG gives the symbols of the four indices of lanes 0 to 2 of DIN (R130, R131). -/
theorem exec_encg (s : State) :
    exec .encg s = .next (complete (word (symbolByte s.alpha (index0 (lane s.din 0)))
      (symbolByte s.alpha (index1 (lane s.din 0) (lane s.din 1)))
      (symbolByte s.alpha (index2 (lane s.din 1) (lane s.din 2)))
      (symbolByte s.alpha (index3 (lane s.din 2)))) 4 false s) := rfl

/-- Settles O45: DECG reads the indices back from their symbols, and the bytes from the indices. -/
theorem decgUndoesEncg : Obligations.DecgUndoesEncg := by
  intro s h
  refine ⟨_, _, exec_encg s, exec_decg_symbols ?_ rfl, ?_⟩
  · exact h
  · rw [byte0_index, byte1_index, byte2_index]
    obtain ⟨hcount, herr, -, hoob, -⟩ := statusComplete_fields 3 false (statusComplete 4 false s.status)
    exact ⟨rfl, hcount, herr, hoob⟩

end Sys2Proof.Machine
end

section
/-! A repeated command (spec/20_memory.md R77): the two ends of a command write the same DOUT and the same STATUS a
second time, and no command changes the operands it reads. -/

namespace Sys2Proof.Machine

/-- The STATUS of a completion is left by the same completion: SOOB already holds the OOB it accumulates (R41). -/
@[simp] theorem statusComplete_idem (n : BitVec 3) (o : Bool) (st : Word) :
    statusComplete n o (statusComplete n o st) = statusComplete n o st := by
  obtain ⟨hcount, herr, hcause, hoob, hsoob, -⟩ := statusComplete_fields n o st
  obtain ⟨hcount', herr', hcause', hoob', hsoob', hserr', hfcause', hrsv'⟩ :=
    statusComplete_fields n o (statusComplete n o st)
  refine status_ext _ _ (hcount'.trans hcount.symm) (herr'.trans herr.symm) (hcause'.trans hcause.symm)
    (hoob'.trans hoob.symm) hserr' ?_ hfcause' hrsv'
  rw [hsoob', hsoob, Bool.or_assoc, Bool.or_self]

/-- The STATUS of a failure is left by the same failure: SERR is set, so FCAUSE is not written again (R301). -/
@[simp] theorem statusFail_idem (c : Cause) (o : Bool) (st : Word) :
    statusFail c o (statusFail c o st) = statusFail c o st := by
  obtain ⟨hcount, herr, hcause, hoob, hserr, hsoob, -⟩ := statusFail_fields c o st
  obtain ⟨hcount', herr', hcause', hoob', hserr', hsoob', hfcause', hrsv'⟩ :=
    statusFail_fields c o (statusFail c o st)
  rw [hserr, if_pos rfl] at hfcause'
  refine status_ext _ _ (hcount'.trans hcount.symm) (herr'.trans herr.symm) (hcause'.trans hcause.symm)
    (hoob'.trans hoob.symm) (hserr'.trans hserr.symm) ?_ hfcause' hrsv'
  rw [hsoob', hsoob, Bool.or_assoc, Bool.or_self]

@[simp] theorem complete_idem (r : Word) (n : BitVec 3) (o : Bool) (s : State) :
    complete r n o (complete r n o s) = complete r n o s := by
  simp [complete]

@[simp] theorem fail_idem (c : Cause) (o : Bool) (s : State) : fail c o (fail c o s) = fail c o s := by
  simp [fail]

/-- Settles O42: CTRL, ALPHA and DIN fix the end a command has, they are unchanged after it, and each end is
idempotent. -/
theorem repeatedCommandRepeatsTheState : Obligations.RepeatedCommandRepeatsTheState := by
  intro i s
  by_cases hnop : i = .nop
  · subst hnop
    exact ⟨s, rfl, rfl⟩
  by_cases hclrs : i = .clrs
  · subst hclrs
    exact ⟨clearStatus s, rfl, rfl⟩
  rcases exec_cases_of_operands i hnop hclrs s.ctrl s.alpha s.din with ⟨r, n, o, -, h⟩ | ⟨c, o, -, h⟩
  · exact ⟨complete r n o s, h s rfl rfl rfl, by rw [h (complete r n o s) rfl rfl rfl, complete_idem]⟩
  · exact ⟨fail c o s, h s rfl rfl rfl, by rw [h (fail c o s) rfl rfl rfl, fail_idem]⟩

end Sys2Proof.Machine
end

section
/-! The host's accesses to the register window (spec/20_memory.md R70-R75): an access is a 32-bit access to one of the
eight slots, or it is refused; and which event of the block an access at a host address is. -/

namespace Sys2Proof.Machine

/-- The offsets of the slots are multiples of 4 up to 0x1C (R21). -/
theorem Slot.offset_toNat_aligned (slot : Slot) : slot.offset.toNat % 4 = 0 ∧ slot.offset.toNat ≤ 0x1C := by
  cases slot <;> decide

/-- Every multiple of 4 in the window is the offset of a slot (R72). -/
theorem exists_slot_of_aligned {off : Offset} (h : off.toNat % 4 = 0) : ∃ slot : Slot, off = slot.offset := by
  obtain ⟨slot, hslot⟩ := Option.isSome_iff_exists.1 ((slotAt_eq_some_iff off).2 h)
  exact ⟨slot, eq_offset_of_slotAt hslot⟩

/-- The same of an offset given as a number (R72). -/
theorem exists_slot_of_aligned_nat {off : Nat} (h : off % 4 = 0) (hle : off ≤ 0x1C) :
    ∃ slot : Slot, off = slot.offset.toNat := by
  have hoff : (BitVec.ofNat 5 off).toNat = off := by
    rw [BitVec.toNat_ofNat]
    omega
  obtain ⟨slot, hslot⟩ := exists_slot_of_aligned (off := BitVec.ofNat 5 off) (hoff.symm ▸ h)
  exact ⟨slot, hslot ▸ hoff.symm⟩

/-- A window access is a 32-bit access to a slot, or of another width or alignment (R75). -/
theorem slot_or_unsupported (off : Offset) (width : Nat) :
    (∃ slot : Slot, off = slot.offset ∧ width = 4) ∨ (width ≠ 4 ∨ off.toNat % 4 ≠ 0) := by
  by_cases hw : width = 4
  · by_cases ha : off.toNat % 4 = 0
    · obtain ⟨slot, hslot⟩ := exists_slot_of_aligned ha
      exact .inl ⟨slot, hslot, hw⟩
    · exact .inr (.inr ha)
  · exact .inr (.inl hw)

/-- A read of another width or alignment is refused (R75). -/
theorem performEvent_read_refused {off : Offset} {width : Nat} (h : width ≠ 4 ∨ off.toNat % 4 ≠ 0) (s : State) :
    performEvent (.access (.read off width)) s = .refused (.unsupportedBusAccess (.read off width)) := by
  simp [performEvent, performAccess, admittedSlot_eq_none h]

/-- A write of another width or alignment is refused (R75). -/
theorem performEvent_write_refused {off : Offset} {width : Nat} (h : width ≠ 4 ∨ off.toNat % 4 ≠ 0) (v : Word)
    (s : State) :
    performEvent (.access (.write off width v)) s = .refused (.unsupportedBusAccess (.write off width v)) := by
  simp [performEvent, performAccess, admittedSlot_eq_none h]

/-- A 32-bit write of a slot answers a next state, at CMD whatever the word (R73, R302). -/
theorem performEvent_write_next (slot : Slot) (v : Word) (s : State) :
    ∃ t, performEvent (.access (.write slot.offset 4 v)) s = .next t := by
  by_cases hcmd : slot = .cmd
  · subst hcmd
    exact performCommand_next v s
  · exact ⟨_, performEvent_write slot v s hcmd⟩

/-- A read of a slot by its host address (R72). -/
theorem readEvent_slot (slot : Slot) (width : Nat) :
    readEvent (Config.base + slot.offset.toNat) width = some (.access (.read slot.offset width)) := by
  simp [readEvent, windowOffset_base_add slot.offset.isLt]

/-- A write of a slot by its host address (R73). -/
theorem writeEvent_slot (slot : Slot) (width : Nat) (v : Word) :
    writeEvent (Config.base + slot.offset.toNat) width v = some (.access (.write slot.offset width v)) := by
  simp [writeEvent, windowOffset_base_add slot.offset.isLt]

/-- A host read that is an event of the block is a read at the address's offset in the window (R70, R72). -/
theorem readEvent_eq_some {addr width : Nat} {e : BusEvent} (h : readEvent addr width = some e) :
    ∃ off : Offset, addr = Config.base + off.toNat ∧ e = .access (.read off width) := by
  obtain ⟨off, hoff, he⟩ := Option.map_eq_some_iff.1 h
  exact ⟨off, eq_base_add_of_windowOffset hoff, he.symm⟩

/-- A host write that is an event of the block is a write at the address's offset in the window (R70, R73). -/
theorem writeEvent_eq_some {addr width : Nat} {v : Word} {e : BusEvent} (h : writeEvent addr width v = some e) :
    ∃ off : Offset, addr = Config.base + off.toNat ∧ e = .access (.write off width v) := by
  obtain ⟨off, hoff, he⟩ := Option.map_eq_some_iff.1 h
  exact ⟨off, eq_base_add_of_windowOffset hoff, he.symm⟩

/-- Settles O12: an idle step, a reset and every access to a slot answer; the accesses that are left are refused. -/
theorem onlyUnsupportedAccessesStop : Obligations.OnlyUnsupportedAccessesStop := by
  intro s
  cases hbus : s.bus with
  | nil => exact .inl ⟨s, step_idle s hbus⟩
  | cons e rest =>
    rw [step_event s e rest hbus]
    cases e with
    | reset f => exact .inl ⟨_, rfl⟩
    | access a =>
      cases a with
      | read off width =>
        rcases slot_or_unsupported off width with ⟨slot, rfl, rfl⟩ | hbad
        · exact .inl ⟨_, performEvent_read slot _⟩
        · exact .inr ⟨_, rest, rfl, performEvent_read_refused hbad _, .inl ⟨off, width, rfl, hbad⟩⟩
      | write off width v =>
        rcases slot_or_unsupported off width with ⟨slot, rfl, rfl⟩ | hbad
        · exact .inl (performEvent_write_next slot v _)
        · exact .inr ⟨_, rest, rfl, performEvent_write_refused hbad v _, .inr ⟨off, width, v, rfl, hbad⟩⟩

/-- Settles O8: the aligned offsets are those of the slots, and a read at any other is refused. -/
theorem hostReadReturnsTheRegister : Obligations.HostReadReturnsTheRegister := by
  refine ⟨fun s off halign hle => ?_, fun s t addr width e hevent hstep => ?_⟩
  · obtain ⟨slot, rfl⟩ := exists_slot_of_aligned_nat halign hle
    refine ⟨_, readEvent_slot slot 4, ?_⟩
    rw [step_enqueueFirst, performEvent_read]
    cases slot <;> rfl
  · obtain ⟨off, haddr, rfl⟩ := readEvent_eq_some hevent
    rw [step_enqueueFirst] at hstep
    rcases slot_or_unsupported off width with ⟨slot, rfl, hwidth⟩ | hbad
    · exact ⟨hwidth, _, haddr, slot.offset_toNat_aligned⟩
    · rw [performEvent_read_refused hbad] at hstep
      cases hstep

/-- Settles O9: the aligned offsets are those of the slots, and a write at any other is refused. -/
theorem hostWriteUpdatesTheRegister : Obligations.HostWriteUpdatesTheRegister := by
  refine ⟨fun s v off halign hle => ?_, fun s t addr width v e hevent hstep => ?_⟩
  · obtain ⟨slot, rfl⟩ := exists_slot_of_aligned_nat halign hle
    refine ⟨_, writeEvent_slot slot 4 v, ?_⟩
    rw [step_enqueueFirst]
    by_cases hcmd : slot = .cmd
    · subst hcmd
      exact performEvent_cmd v s
    · rw [performEvent_write slot v s hcmd]
      cases slot with
      | cmd => exact absurd rfl hcmd
      | _ => rfl
  · obtain ⟨off, haddr, rfl⟩ := writeEvent_eq_some hevent
    rw [step_enqueueFirst] at hstep
    rcases slot_or_unsupported off width with ⟨slot, rfl, hwidth⟩ | hbad
    · exact ⟨hwidth, _, haddr, slot.offset_toNat_aligned⟩
    · rw [performEvent_write_refused hbad] at hstep
      cases hstep

/-- Settles O10: what is no access to a slot is refused, and an address outside the window is no event. -/
theorem unsupportedAccessesAreRefused : Obligations.UnsupportedAccessesAreRefused := by
  refine ⟨fun s off width hbad => ⟨?_, fun v => ?_⟩, fun addr width v hout => ⟨?_, ?_⟩⟩
  · rw [step_enqueueFirst, performEvent_read_refused hbad]
  · rw [step_enqueueFirst, performEvent_write_refused hbad]
  · rw [readEvent, windowOffset_eq_none hout, Option.map_none]
  · rw [writeEvent, windowOffset_eq_none hout, Option.map_none]

end Sys2Proof.Machine
end

section
/-! The decoder and the legal words (spec/30_encoding.md R100-R103): the decoder undoes the encoder, and it accepts
exactly the words that the predicate of R102 calls legal. -/

namespace Sys2Proof

/-- The decoder reads a command back from its word (R101). -/
@[simp] theorem decode_encode (i : Instr) : decode (encode i) = .ok i := by
  cases i <;> rfl

/-- The opcode map lists every command (R101). -/
theorem Instr.mem_all (i : Instr) : i ∈ Instr.all := by
  cases i <;> decide

/-- The operation codes in use (R102). -/
abbrev usedOps : List (BitVec 4) := [0x0#4, 0x1#4, 0x2#4, 0x3#4, 0x4#4, 0x5#4, 0x6#4, 0x8#4, 0x9#4, 0xF#4]

/-- The opcode map names a command at the fields whose OP is in use and whose L stands with OP = 0x4 only (R101,
R102). -/
theorem exists_decodeFields_iff (op : BitVec 4) (last : Bool) :
    (∃ i, decodeFields op last = .ok i) ↔ op ∈ usedOps ∧ (last = false ∨ op = 0x4#4) := by
  have table : ∀ (op : BitVec 4) (last : Bool), (∃ i ∈ Instr.all, decodeFields op last = .ok i) ↔
      op ∈ usedOps ∧ (last = false ∨ op = 0x4#4) := by decide
  simpa only [Instr.mem_all, true_and] using table op last

/-- The three clauses of `legal` (R102). -/
theorem legal_iff (w : Word) :
    legal w = true ↔ w.extractLsb' 5 27 = 0#27 ∧ w.extractLsb' 0 4 ∈ usedOps ∧
      (w.getLsbD 4 = false ∨ w.extractLsb' 0 4 = 0x4#4) := by
  simp only [legal, legalReserved, legalOp, legalLast, Bool.and_eq_true, Bool.or_eq_true, beq_iff_eq,
    List.contains_iff_mem, and_assoc]

/-- The decoder accepts exactly the legal words (R102, R103). -/
theorem exists_decode_ok_iff (w : Word) : (∃ i, decode w = .ok i) ↔ legal w = true := by
  rw [legal_iff]
  by_cases hr : reservedField w = 0#27
  · rw [decode, if_neg (not_not.2 hr), exists_decodeFields_iff]
    exact ⟨fun h => ⟨hr, h⟩, And.right⟩
  · rw [decode, if_pos hr]
    exact ⟨nofun, fun h => absurd h.1 hr⟩

/-- The decoder rejects every other word. -/
theorem exists_decode_error {w : Word} (h : ¬legal w = true) : ∃ e, decode w = .error e := by
  cases hd : decode w with
  | ok i => exact absurd ((exists_decode_ok_iff w).1 ⟨i, hd⟩) h
  | error e => exact ⟨e, rfl⟩

/-- Settles O2: a word that decodes is its command's word, and that word decodes. -/
theorem decodeAcceptsExactlyTheEncodings : Obligations.DecodeAcceptsExactlyTheEncodings := by
  intro w i
  exact ⟨eq_encode_of_decode, fun h => h ▸ decode_encode i⟩

/-- Settles O1: the words are those of the encoder, and a reserved OP is not legal. -/
theorem wordsDecodeAsTheOpcodeMap : Obligations.WordsDecodeAsTheOpcodeMap := by
  refine ⟨decode_encode .nop, decode_encode .encg, decode_encode .enct1, decode_encode .enct2, decode_encode .decg,
    decode_encode .decgL, decode_encode .dect2, decode_encode .dect3, decode_encode .elen, decode_encode .dlen,
    decode_encode .clrs, fun w hop => exists_decode_error fun hlegal => ?_⟩
  obtain ⟨-, hused, -⟩ := (legal_iff w).1 hlegal
  have disjoint : ∀ op ∈ [0x7#4, 0xA#4, 0xB#4, 0xC#4, 0xD#4, 0xE#4], op ∉ usedOps := by decide
  exact disjoint _ hop hused

end Sys2Proof

namespace Sys2Proof.Machine

/-- A write to CMD of a word that decodes to no command fails with ILLEGAL (R102). -/
theorem performCommand_of_decode_error {w : Word} {e : DecodeError} (h : decode w = .error e) (s : State) :
    performCommand w s = .next (fail .illegal false s) := by
  simp [performCommand, h]

/-- Settles O3: the decoder accepts exactly the legal words. -/
theorem legalWordsRunAndIllegalWordsFail : Obligations.LegalWordsRunAndIllegalWordsFail := by
  intro w s
  rw [← legal_iff, commandEvent, step_enqueueFirst, performEvent_cmd]
  refine ⟨fun hlegal => ?_, fun hillegal => ?_⟩
  · obtain ⟨i, hi⟩ := (exists_decode_ok_iff w).2 hlegal
    exact ⟨i, hi, performCommand_of_decode hi s⟩
  · obtain ⟨e, he⟩ := exists_decode_error hillegal
    exact ⟨_, performCommand_of_decode_error he s, fail_failedWith .illegal false s⟩

end Sys2Proof.Machine
end

section
/-! The ignored lanes (spec/30_encoding.md R104): a command that reads some lanes of DIN ends in the same way on two
operands that agree on them. -/

namespace Sys2Proof.Machine

/-- Two commands both answer, with the same DOUT and the same STATUS. -/
def SameResult (x y : Host.Outcome State Fault Refusal) : Prop :=
  ∃ t u, x = .next t ∧ y = .next u ∧ t.dout = u.dout ∧ t.status = u.status

theorem SameResult.complete (r : Word) (n : BitVec 3) (o : Bool) (s : State) (d : Word) :
    SameResult (.next (complete r n o s)) (.next (complete r n o { s with din := d })) :=
  ⟨_, _, rfl, rfl, rfl, rfl⟩

theorem SameResult.fail (c : Cause) (o : Bool) (s : State) (d : Word) :
    SameResult (.next (fail c o s)) (.next (fail c o { s with din := d })) :=
  ⟨_, _, rfl, rfl, rfl, rfl⟩

/-- The last test of a decode command looks at CTRL and the OOB only (R224). -/
theorem SameResult.finishDecode (r : Word) (n : BitVec 3) (o : Bool) (s : State) (d : Word) :
    SameResult (.next (finishDecode r n o s)) (.next (finishDecode r n o { s with din := d })) := by
  by_cases h : strict s.ctrl = false ∨ o = false
  · rw [finishDecode_complete r n h, finishDecode_complete r n (s := { s with din := d }) h]
    exact .complete r n o s d
  · rw [finishDecode_fail r n h, finishDecode_fail r n (s := { s with din := d }) h]
    exact .fail .symbol true s d

/-- Settles O37, command by command: the meaning asks for the lanes it reads and for nothing else of DIN. -/
theorem ignoredLanesHaveNoEffect : Obligations.IgnoredLanesHaveNoEffect := by
  intro i ks hmem s d hlanes
  change SameResult (exec i s) (exec i { s with din := d })
  simp only [List.mem_cons, Prod.mk.injEq, List.not_mem_nil, or_false] at hmem
  rcases hmem with ⟨rfl, rfl⟩ | ⟨rfl, rfl⟩ | ⟨rfl, rfl⟩ | ⟨rfl, rfl⟩ | ⟨rfl, rfl⟩ | ⟨rfl, rfl⟩ | ⟨rfl, rfl⟩
  · obtain ⟨h0, h1, h2, -⟩ := by simpa only [List.forall_mem_cons] using hlanes
    simp only [exec, execEncg, h0, h1, h2]
    exact .complete _ _ _ s d
  · have h0 := hlanes 0 (by decide)
    simp only [exec, execEnct1, h0]
    split <;> exact .complete _ _ _ s d
  · obtain ⟨h0, h1, -⟩ := by simpa only [List.forall_mem_cons] using hlanes
    simp only [exec, execEnct2, h0, h1]
    split <;> exact .complete _ _ _ s d
  · obtain ⟨h0, h1, -⟩ := by simpa only [List.forall_mem_cons] using hlanes
    simp only [exec, execDect2, h0, h1]
    split
    · exact .fail _ _ s d
    · exact .finishDecode _ _ _ s d
  · obtain ⟨h0, h1, h2, -⟩ := by simpa only [List.forall_mem_cons] using hlanes
    simp only [exec, execDect3, h0, h1, h2]
    split
    · exact .fail _ _ s d
    · exact .finishDecode _ _ _ s d
  · exact ⟨_, _, rfl, rfl, rfl, rfl⟩
  · exact ⟨_, _, rfl, rfl, rfl, rfl⟩

end Sys2Proof.Machine
end

section
/-! The lines of a host program (spec/30_encoding.md R110): each is one 32-bit access to a slot of the window. -/

namespace Sys2Proof.Machine

/-- `rd REG` is a read of the register's slot at its host address. -/
theorem readEvent_rd (reg : Reg) :
    readEvent (HostLine.rd reg).address 4 = some (.access (HostLine.rd reg).access) :=
  readEvent_slot reg.slot 4

/-- `wr REG, imm32` is a write of the register's slot at its host address. -/
theorem writeEvent_wr (reg : Reg) (imm : Word) :
    writeEvent (HostLine.wr reg imm).address 4 imm = some (.access (HostLine.wr reg imm).access) :=
  writeEvent_slot reg.slot 4 imm

/-- A command mnemonic is a write of the command's word to CMD. -/
theorem writeEvent_command (i : Instr) :
    writeEvent (HostLine.command i).address 4 (encode i) = some (.access (HostLine.command i).access) :=
  writeEvent_slot .cmd 4 (encode i)

/-- Settles O56: the listed offsets are those of the registers' slots, and the listed words those of the encoder. -/
theorem hostLinesAreSingleAccesses : Obligations.HostLinesAreSingleAccesses := by
  refine ⟨fun reg off hmem => ?_, fun reg => by cases reg <;> decide, fun i w hmem => ?_, Instr.mem_all⟩
  · have offsets : ∀ p ∈ [(Reg.ctrl, 0x00), (.alpha, 0x04), (.cmd, 0x08), (.din, 0x0C), (.dout, 0x10),
        (.status, 0x14)], p.2 = p.1.offset.toNat := by decide
    obtain rfl : off = reg.offset.toNat := offsets _ hmem
    have hoff : reg.offset = BitVec.ofNat 5 reg.offset.toNat := by simp
    exact ⟨⟨rfl, readEvent_rd reg, congrArg (HostAccess.read · 4) hoff⟩,
      fun imm => ⟨rfl, writeEvent_wr reg imm, congrArg (HostAccess.write · 4 imm) hoff⟩⟩
  · have words : ∀ p ∈ [(Instr.nop, 0x00000000#32), (.encg, 0x00000001#32), (.enct1, 0x00000002#32),
        (.enct2, 0x00000003#32), (.decg, 0x00000004#32), (.decgL, 0x00000014#32), (.dect2, 0x00000005#32),
        (.dect3, 0x00000006#32), (.elen, 0x00000008#32), (.dlen, 0x00000009#32), (.clrs, 0x0000000F#32)],
        p.2 = encode p.1 := by decide
    obtain rfl : w = encode i := words _ hmem
    exact ⟨rfl, writeEvent_command i, rfl⟩

end Sys2Proof.Machine
end

section
/-! The full group and the forms of its index extraction (spec/41_encode_group.md R130-R136; spec/10_state.md R35): the
indices as quotients and remainders of the bytes, with which each form is compared. -/

namespace Sys2Proof.Machine

/-- Settles O13: ENCG ends with a completion by the symbols of the scalar reference. -/
theorem encgEncodesTheGroup : Obligations.EncgEncodesTheGroup :=
  ⟨decode_encode .encg, fun s => ⟨_, exec_encg s, complete_completedWith _ 4 false s⟩⟩

/-- The indices of the scalar reference as quotients and remainders of the bytes (R130). -/
theorem scalarIndices_eq (b0 b1 b2 : Byte) :
    scalarIndices b0 b1 b2 = [b0.toNat / 4, b0.toNat % 4 * 16 + b1.toNat / 16,
      b1.toNat % 16 * 4 + b2.toNat / 64, b2.toNat % 64] := by
  rw [scalarIndices, index0_toNat, index1_toNat, index2_toNat, index3_toNat]

/-- The 24 bits of a group as a number, the first byte on top (R132). -/
theorem groupBits_toNat (b0 b1 b2 : Byte) :
    (groupBits b0 b1 b2).toNat = (b0.toNat * 2 ^ 8 + b1.toNat) * 2 ^ 8 + b2.toNat := by
  rw [groupBits, BitVec.toNat_append, BitVec.toNat_append, shiftLeft_or_eq _ b1.isLt, shiftLeft_or_eq _ b2.isLt]

/-- A slice of the group is a digit of its number in base 64 (R132). -/
theorem sliceIndex_toNat (b0 b1 b2 : Byte) (k : Nat) :
    (sliceIndex b0 b1 b2 k).toNat = (groupBits b0 b1 b2).toNat / 2 ^ (18 - 6 * k) % 64 := by
  rw [sliceIndex, BitVec.extractLsb'_toNat, Nat.shiftRight_eq_div_pow]

/-- Settles O30: the indices of the scalar reference are the digits of the group's number in base 64. -/
theorem bitSliceEqualsScalarReference : Obligations.BitSliceEqualsScalarReference := by
  intro b0 b1 b2
  have := b0.isLt
  have := b1.isLt
  have := b2.isLt
  simp only [scalarIndices_eq, sliceIndex_toNat, groupBits_toNat, List.cons.injEq, and_true]
  omega

/-- The lanes of the spread-and-scale strategy (R135). -/
theorem spreadLanes_eq (b0 b1 b2 : Byte) :
    spreadLanes b0 b1 b2 = [b0.toNat / 4, b0.toNat * 16 % 256 + b1.toNat / 16,
      b1.toNat * 4 % 256 + b2.toNat / 64, b2.toNat] := by
  simpa [spreadLanes, spreadMultiplier, spreadDivisor] using b2.isLt

/-- A lane of the spread-and-scale strategy fits a byte (R135). -/
theorem spreadLanes_le (b0 b1 b2 : Byte) : ∀ x ∈ spreadLanes b0 b1 b2, x ≤ 255 := by
  have := b0.isLt
  have := b1.isLt
  have := b2.isLt
  simp only [spreadLanes_eq, List.forall_mem_cons]
  refine ⟨?_, ?_, ?_, ?_, List.forall_mem_nil _⟩ <;> omega

/-- The low six bits of the lanes are the indices (R135). -/
theorem spreadLanes_low (b0 b1 b2 : Byte) : (spreadLanes b0 b1 b2).map (· &&& 0x3F) = scalarIndices b0 b1 b2 := by
  have := b0.isLt
  have := b1.isLt
  have := b2.isLt
  simp only [spreadLanes_eq, scalarIndices_eq, List.map_cons, List.map_nil, Nat.and_two_pow_sub_one_eq_mod _ 6,
    List.cons.injEq, and_true]
  omega

/-- The replicated table reads the low six bits of a byte (R35). -/
theorem replicatedTable_ofNat (alpha : Word) (x : Nat) :
    replicatedTable alpha (BitVec.ofNat 8 x) = encodeTable alpha (BitVec.ofNat 6 (x &&& 0x3F)) := by
  rw [replicatedTable, BitVec.toNat_ofNat, Nat.and_two_pow_sub_one_eq_mod _ 6, Nat.mod_mod_of_dvd _ (by decide)]

/-- Settles O31: the lookup needs the low six bits of the lanes only. -/
theorem spreadAndScaleEqualsScalarReference : Obligations.SpreadAndScaleEqualsScalarReference := by
  refine fun b0 b1 b2 => ⟨spreadLanes_low b0 b1 b2, spreadLanes_le b0 b1 b2, fun alpha => ?_⟩
  simp only [← spreadLanes_low, List.map_map, Function.comp_def, replicatedTable_ofNat]

/-- The rearranged word holds the group's number (R136). -/
theorem rearranged_toNat (b0 b1 b2 : Byte) : (rearranged b0 b1 b2).toNat = (groupBits b0 b1 b2).toNat := by
  simp only [rearranged, groupBits, BitVec.toNat_append, BitVec.toNat_ofNat, Nat.zero_mod, Nat.zero_shiftLeft,
    Nat.zero_or]

/-- The low six bits of a byte of a word. -/
theorem toNat_byte_and_low (w : Word) (lo : Nat) : (w.extractLsb' lo 8 &&& 0x3F#8).toNat = w.toNat / 2 ^ lo % 64 := by
  rw [BitVec.toNat_and, BitVec.extractLsb'_toNat, Nat.shiftRight_eq_div_pow]
  exact (Nat.and_two_pow_sub_one_eq_mod _ 6).trans (Nat.mod_mod_of_dvd _ (by decide))

/-- In each byte of the result, the masks leave the low six bits of one product (R136). -/
theorem maskedProducts_bytes (w : Word) :
    (maskedProducts w).extractLsb' 24 8 = (w * 64#32).extractLsb' 24 8 &&& 0x3F#8 ∧
    (maskedProducts w).extractLsb' 16 8 = (w * 16#32).extractLsb' 16 8 &&& 0x3F#8 ∧
    (maskedProducts w).extractLsb' 8 8 = (w * 4#32).extractLsb' 8 8 &&& 0x3F#8 ∧
    (maskedProducts w).extractLsb' 0 8 = w.extractLsb' 0 8 &&& 0x3F#8 := by
  simp [maskedProducts, BitVec.extractLsb'_or, BitVec.extractLsb'_and]

/-- Settles O32: each product moves one index to the low six bits of a byte of its own. -/
theorem maskedProductsEqualScalarReference : Obligations.MaskedProductsEqualScalarReference := by
  intro b0 b1 b2
  have := b0.isLt
  have := b1.isLt
  have := b2.isLt
  obtain ⟨h0, h1, h2, h3⟩ := maskedProducts_bytes (rearranged b0 b1 b2)
  simp only [h0, h1, h2, h3, toNat_byte_and_low, BitVec.toNat_mul, BitVec.toNat_ofNat, rearranged_toNat,
    groupBits_toNat, scalarIndices_eq, List.cons.injEq, and_true]
  omega

end Sys2Proof.Machine
end

section
/-! The tail commands (spec/42_encode_tail.md R161, R162): what ENCT1 and ENCT2 answer in each mode, and their indices
as those of a group whose missing bytes are 0. -/

namespace Sys2Proof.Machine

/-- ENCT1 in padded mode (R161). -/
theorem exec_enct1_padded {s : State} (h : padEn s.ctrl = true) :
    exec .enct1 s = .next (complete (word (symbolByte s.alpha (index0 (lane s.din 0)))
      (symbolByte s.alpha (tailIndex1 (lane s.din 0))) (padByte s.alpha) (padByte s.alpha)) 4 false s) :=
  if_pos h

/-- ENCT1 in unpadded mode (R161). -/
theorem exec_enct1_unpadded {s : State} (h : padEn s.ctrl = false) :
    exec .enct1 s = .next (complete (word (symbolByte s.alpha (index0 (lane s.din 0)))
      (symbolByte s.alpha (tailIndex1 (lane s.din 0))) 0 0) 2 false s) :=
  if_neg (Bool.eq_false_iff.1 h)

/-- ENCT2 in padded mode (R162). -/
theorem exec_enct2_padded {s : State} (h : padEn s.ctrl = true) :
    exec .enct2 s = .next (complete (word (symbolByte s.alpha (index0 (lane s.din 0)))
      (symbolByte s.alpha (tailIndex1Of2 (lane s.din 0) (lane s.din 1)))
      (symbolByte s.alpha (tailIndex2 (lane s.din 1))) (padByte s.alpha)) 4 false s) :=
  if_pos h

/-- ENCT2 in unpadded mode (R162). -/
theorem exec_enct2_unpadded {s : State} (h : padEn s.ctrl = false) :
    exec .enct2 s = .next (complete (word (symbolByte s.alpha (index0 (lane s.din 0)))
      (symbolByte s.alpha (tailIndex1Of2 (lane s.din 0) (lane s.din 1)))
      (symbolByte s.alpha (tailIndex2 (lane s.din 1))) 0) 3 false s) :=
  if_neg (Bool.eq_false_iff.1 h)

/-- Settles O14: in each mode ENCT1 ends with a completion. -/
theorem enctOneEncodesAOneByteTail : Obligations.EnctOneEncodesAOneByteTail :=
  ⟨decode_encode .enct1, fun s =>
    ⟨fun h => ⟨_, exec_enct1_padded h, complete_completedWith _ 4 false s⟩,
      fun h => ⟨_, exec_enct1_unpadded h, complete_completedWith _ 2 false s⟩⟩⟩

/-- Settles O15: in each mode ENCT2 ends with a completion. -/
theorem enctTwoEncodesATwoByteTail : Obligations.EnctTwoEncodesATwoByteTail :=
  ⟨decode_encode .enct2, fun s =>
    ⟨fun h => ⟨_, exec_enct2_padded h, complete_completedWith _ 4 false s⟩,
      fun h => ⟨_, exec_enct2_unpadded h, complete_completedWith _ 3 false s⟩⟩⟩

/-- The last index of a 1-byte tail is that of a group whose second byte is 0 (R161). -/
theorem tailIndex1_eq (b0 : Byte) : tailIndex1 b0 = index1 b0 0 := by
  simp [tailIndex1, index1]

/-- The last index of a 2-byte tail is that of a group whose third byte is 0 (R162). -/
theorem tailIndex2_eq (b1 : Byte) : tailIndex2 b1 = index2 b1 0 := by
  simp [tailIndex2, index2]

/-- The middle index of a 2-byte tail is that of a group: the mask of R162 leaves the second byte's part alone, since it
is below the mask. -/
theorem tailIndex1Of2_eq (b0 b1 : Byte) : tailIndex1Of2 b0 b1 = index1 b0 b1 := by
  have hmask : b1.toNat >>> 4 &&& 0x3F = b1.toNat >>> 4 := by
    have := b1.isLt
    rw [Nat.and_two_pow_sub_one_eq_mod _ 6, Nat.shiftRight_eq_div_pow]
    omega
  rw [tailIndex1Of2, index1, Nat.and_or_distrib_right, hmask]

/-- The first two lanes of ENCT1's result, in either mode (R161). -/
theorem exec_enct1_symbols (s : State) : ∃ t, exec .enct1 s = .next t ∧
    lane t.dout 0 = symbolByte s.alpha (index0 (lane s.din 0)) ∧
    lane t.dout 1 = symbolByte s.alpha (tailIndex1 (lane s.din 0)) := by
  cases h : padEn s.ctrl with
  | true => exact ⟨_, exec_enct1_padded h, lane_word_0 .., lane_word_1 ..⟩
  | false => exact ⟨_, exec_enct1_unpadded h, lane_word_0 .., lane_word_1 ..⟩

/-- The first three lanes of ENCT2's result, in either mode (R162). -/
theorem exec_enct2_symbols (s : State) : ∃ t, exec .enct2 s = .next t ∧
    lane t.dout 0 = symbolByte s.alpha (index0 (lane s.din 0)) ∧
    lane t.dout 1 = symbolByte s.alpha (tailIndex1Of2 (lane s.din 0) (lane s.din 1)) ∧
    lane t.dout 2 = symbolByte s.alpha (tailIndex2 (lane s.din 1)) := by
  cases h : padEn s.ctrl with
  | true => exact ⟨_, exec_enct2_padded h, lane_word_0 .., lane_word_1 .., lane_word_2 ..⟩
  | false => exact ⟨_, exec_enct2_unpadded h, lane_word_0 .., lane_word_1 .., lane_word_2 ..⟩

theorem tailIndex1_toNat (b0 : Byte) : (tailIndex1 b0).toNat = b0.toNat % 4 * 16 := by
  rw [tailIndex1_eq, index1_toNat]
  rfl

theorem tailIndex2_toNat (b1 : Byte) : (tailIndex2 b1).toNat = b1.toNat % 16 * 4 := by
  rw [tailIndex2_eq, index2_toNat]
  rfl

/-- A symbol is the one at its index's number. -/
theorem symbolByte_eq_ofNat_toNat (alpha : Word) (i : Index) :
    symbolByte alpha i = (encodeTable alpha (BitVec.ofNat 6 i.toNat)).setWidth 8 := by
  rw [BitVec.ofNat_toNat, BitVec.setWidth_eq]
  rfl

/-- Settles O33: a tail's indices are those of the group with zero bytes, and its last index is a multiple of 16 or
of 4. -/
theorem tailSymbolsAreTheGroupsFirst : Obligations.TailSymbolsAreTheGroupsFirst := by
  refine fun s b0 b1 => ⟨?_, ?_⟩
  · obtain ⟨t, ht, h0, h1⟩ := exec_enct1_symbols { s with din := word b0 0 0 0 }
    simp only [lane_word_0] at h0 h1
    refine ⟨t, _, ht, exec_encg _, ?_, ?_, (tailIndex1 b0).toNat, ?_, ?_⟩
    · simp [h0]
    · simp [h1, tailIndex1_eq]
    · simp only [tailIndex1_toNat, List.mem_cons, List.not_mem_nil, or_false]
      omega
    · rw [h1, symbolByte_eq_ofNat_toNat]
  · obtain ⟨t, ht, h0, h1, h2⟩ := exec_enct2_symbols { s with din := word b0 b1 0 0 }
    simp only [lane_word_0, lane_word_1] at h0 h1 h2
    refine ⟨t, _, ht, exec_encg _, ?_, ?_, ?_, (tailIndex2 b1).toNat, ?_, (tailIndex2 b1).isLt, ?_⟩
    · simp [h0]
    · simp [h1, tailIndex1Of2_eq]
    · simp [h2, tailIndex2_eq]
    · rw [tailIndex2_toNat, Nat.mul_mod_left]
    · rw [h2, symbolByte_eq_ofNat_toNat]

end Sys2Proof.Machine
end

section
/-! The output length (spec/42_encode_tail.md R160, R164): where `target_length` leaves 32 bits. -/

namespace Sys2Proof.Machine

/-- ELEN of a length whose target length fits 32 bits (R164). -/
theorem exec_elen_fits {s : State} (h : targetLength (padEn s.ctrl) s.din.toNat ≤ 0xFFFFFFFF) :
    exec .elen s = .next (complete (BitVec.ofNat 32 (targetLength (padEn s.ctrl) s.din.toNat)) 0 false s) :=
  if_neg (Nat.not_lt.2 h)

/-- ELEN of a length whose target length does not (R164). -/
theorem exec_elen_range {s : State} (h : 0xFFFFFFFF < targetLength (padEn s.ctrl) s.din.toNat) :
    exec .elen s = .next (fail .range false s) :=
  if_pos h

/-- The lengths whose target length does not fit 32 bits, in each mode (R164). -/
theorem lt_targetLength_iff (padded : Bool) (n : Nat) :
    0xFFFFFFFF < targetLength padded n ↔
      (padded = true ∧ 0xBFFFFFFE ≤ n) ∨ (padded = false ∧ 0xC0000000 ≤ n) := by
  rw [targetLength_eq]
  cases padded with
  | true =>
    simp only [if_true, true_and, Bool.true_eq_false, false_and, or_false]
    split_ifs <;> omega
  | false =>
    simp only [Bool.false_eq_true, if_false, true_and, false_and, false_or]
    split_ifs <;> omega

/-- Settles O16: the two ends of ELEN, and the lengths that part them. -/
theorem elenGivesTheTargetLength : Obligations.ElenGivesTheTargetLength := by
  refine ⟨decode_encode .elen, fun s => ?_⟩
  simp only [← targetLength_eq]
  refine ⟨fun h => ⟨_, exec_elen_fits h, complete_completedWith _ 0 false s, ?_⟩,
    fun h => ⟨_, exec_elen_range h, fail_failedWith .range false s⟩, lt_targetLength_iff _ _⟩
  rw [complete_dout, BitVec.toNat_ofNat, Nat.mod_eq_of_lt (by omega)]

end Sys2Proof.Machine
end

section
/-! The whole encode (spec/42_encode_tail.md R163, R165, R166; spec/43_host_chunked_driver.md R190): its output is the
symbols of the input's indices, in which the mode plays no part, and the padding of the mode after them. -/

namespace Sys2Proof.Machine

/-- The indices of an input: those of its whole groups (R130), then those of its tail (R161, R162). -/
def encodedIndices : List Byte → List Index
  | b0 :: b1 :: b2 :: rest => index0 b0 :: index1 b0 b1 :: index2 b1 b2 :: index3 b2 :: encodedIndices rest
  | [b0, b1] => [index0 b0, tailIndex1Of2 b0 b1, tailIndex2 b1]
  | [b0] => [index0 b0, tailIndex1 b0]
  | [] => []

/-- How many padding symbols end the encode of `n` bytes (R165). -/
def paddingLength (padded : Bool) (n : Nat) : Nat :=
  if padded then (if n % 3 = 1 then 2 else if n % 3 = 2 then 1 else 0) else 0

/-- The padding symbols of an encode of `n` bytes under CTRL and ALPHA of a state (R165). -/
def encodedPadding (s : State) (n : Nat) : List Byte :=
  List.replicate (paddingLength (padEn s.ctrl) n) (padByte s.alpha)

/-- In padded mode the padding fills the last group (R165). -/
theorem paddingLength_padded (n : Nat) : paddingLength true n = if n % 3 = 0 then 0 else 3 - n % 3 := by
  rw [paddingLength, if_pos rfl]
  split_ifs <;> omega

/-- A whole group more leaves the padding as it is (R165). -/
@[simp] theorem paddingLength_add_three (padded : Bool) (n : Nat) :
    paddingLength padded (n + 3) = paddingLength padded n := by
  simp [paddingLength]

theorem encodedPadding_padded {s : State} (h : padEn s.ctrl = true) (n : Nat) :
    encodedPadding s n = List.replicate (if n % 3 = 0 then 0 else 3 - n % 3) (padByte s.alpha) := by
  rw [encodedPadding, h, paddingLength_padded]

theorem encodedPadding_unpadded {s : State} (h : padEn s.ctrl = false) (n : Nat) : encodedPadding s n = [] := by
  simp [encodedPadding, paddingLength, h]

/-- A host procedure gives an output and leaves CTRL and ALPHA as they are. -/
def GivesKeepingConfig (r : Run (List Byte)) (out : List Byte) (s : State) : Prop :=
  ∃ t, r = .next (out, t) ∧ t.ctrl = s.ctrl ∧ t.alpha = s.alpha

/-- One command that completes gives the lanes it counts. -/
theorem transform_givesKeepingConfig {v r : Word} {i : Instr} {n : BitVec 3} {o : Bool} {s : State}
    (h : exec i { s with din := v } = .next (complete r n o { s with din := v })) :
    GivesKeepingConfig (transform v i s) (lanes r n.toNat) s := by
  have hcount : statusCount (complete r n o { s with din := v }).status = n := (statusComplete_fields n o s.status).1
  have ht := transform_eq h
  rw [hcount] at ht
  exact ⟨_, ht, rfl, rfl⟩

/-- One command that completes gives as many lanes as are asked for. -/
theorem transformLanes_givesKeepingConfig {v r : Word} {i : Instr} {n : BitVec 3} {o : Bool} {s : State} (m : Nat)
    (h : exec i { s with din := v } = .next (complete r n o { s with din := v })) :
    GivesKeepingConfig (transformLanes v i m s) (lanes r m) s :=
  ⟨_, transformLanes_eq m h, rfl, rfl⟩

/-- The tail of an input below three bytes: its symbols and the mode's padding (R163, R165). -/
theorem encodeTail_gives {l : List Byte} (h : l.length < 3) (s : State) :
    GivesKeepingConfig (encodeTail l s)
      ((encodedIndices l).map (symbolByte s.alpha) ++ encodedPadding s l.length) s := by
  rcases l with _ | ⟨b0, _ | ⟨b1, _ | ⟨b2, r⟩⟩⟩
  · exact ⟨s, by simp [encodeTail, encodedIndices, encodedPadding, paddingLength], rfl, rfl⟩
  · cases hp : padEn s.ctrl with
    | true =>
      simpa [encodeTail, encodedIndices, encodedPadding_padded hp] using
        transform_givesKeepingConfig (s := s) (v := word b0 0 0 0) (exec_enct1_padded hp)
    | false =>
      simpa [encodeTail, encodedIndices, encodedPadding_unpadded hp] using
        transform_givesKeepingConfig (s := s) (v := word b0 0 0 0) (exec_enct1_unpadded hp)
  · cases hp : padEn s.ctrl with
    | true =>
      simpa [encodeTail, encodedIndices, encodedPadding_padded hp] using
        transform_givesKeepingConfig (s := s) (v := word b0 b1 0 0) (exec_enct2_padded hp)
    | false =>
      simpa [encodeTail, encodedIndices, encodedPadding_unpadded hp] using
        transform_givesKeepingConfig (s := s) (v := word b0 b1 0 0) (exec_enct2_unpadded hp)
  · simp only [List.length_cons] at h
    omega

/-- The block transform of one group: its four symbols (R131, R133). -/
theorem blockTransform_group (b0 b1 b2 : Byte) (s : State) :
    GivesKeepingConfig (blockTransform [b0, b1, b2] s)
      ([index0 b0, index1 b0 b1, index2 b1 b2, index3 b2].map (symbolByte s.alpha)) s := by
  obtain ⟨t, ht, hctrl, halpha⟩ := transformLanes_givesKeepingConfig 4 (exec_encg { s with din := word b0 b1 b2 0 })
  refine ⟨t, ?_, hctrl, halpha⟩
  rw [blockTransform, ht]
  simp [blockTransform]

/-- A whole encode: the symbols of the input's indices, then the mode's padding (R165, R190). -/
theorem encodeAll_gives (bytes : List Byte) : ∀ s, GivesKeepingConfig (encodeAll bytes s)
    ((encodedIndices bytes).map (symbolByte s.alpha) ++ encodedPadding s bytes.length) s := by
  unfold encodeAll
  induction bytes using list_induction_threes with
  | short l h =>
    intro s
    rw [encodeSplit_short h]
    exact encodeTail_gives h s
  | group b0 b1 b2 r ih =>
    intro s
    obtain ⟨t, ht, htctrl, htalpha⟩ := blockTransform_group b0 b1 b2 s
    obtain ⟨u, hu, huctrl, hualpha⟩ := ih t
    refine ⟨u, ?_, huctrl.trans htctrl, hualpha.trans htalpha⟩
    have hpadding : encodedPadding t r.length = encodedPadding s (r.length + 3) := by
      rw [encodedPadding, encodedPadding, htctrl, htalpha, paddingLength_add_three]
    have happend := encodeSplit_append [b0, b1, b2] r s (by simp)
    rw [ht, andThen_next, hu, andThen_next, htalpha, hpadding] at happend
    exact happend

/-- Settles O48: no symbol of an index is padding, and the padding follows the symbols. -/
theorem encodePlacesPaddingAtTheEnd : Obligations.EncodePlacesPaddingAtTheEnd := by
  intro bytes s hwf
  obtain ⟨t, ht, -⟩ := encodeAll_gives bytes s
  refine ⟨_, _, t, ht, fun c hc => ?_, rfl⟩
  obtain ⟨i, -, rfl⟩ := List.mem_map.1 hc
  exact hwf.isPad_symbolByte i

/-- Settles O49: the symbols depend on the alphabet alone, and the unpadded encode ends with them. -/
theorem unpaddedEncodeDropsOnlyPadding : Obligations.UnpaddedEncodeDropsOnlyPadding := by
  intro bytes s s' halpha hunpadded hpadded
  obtain ⟨t, ht, -⟩ := encodeAll_gives bytes s
  obtain ⟨t', ht', -⟩ := encodeAll_gives bytes s'
  rw [encodedPadding_unpadded hunpadded, List.append_nil] at ht
  rw [encodedPadding_padded hpadded, ← halpha] at ht'
  exact ⟨_, _, t, t', ht, ht', rfl⟩

end Sys2Proof.Machine
end

section
/-! The Chunked Driver (spec/43_host_chunked_driver.md R191-R195): a round sends the whole groups of its buffer and
keeps the rest, so the driver that always makes progress is the whole encode, and a buffer below three bytes never sends
a group. -/

namespace Sys2Proof.Machine

/-- A whole group more is four symbols more (R160). -/
@[simp] theorem targetLength_add_three (padded : Bool) (n : Nat) :
    targetLength padded (n + 3) = targetLength padded n + 4 := by
  rw [targetLength, targetLength, Nat.add_mod_right, Nat.add_div_right n (by decide)]
  omega

/-- The symbols of an encode and its padding: the target length (R160, R191). -/
theorem length_encodedIndices_add_paddingLength (padded : Bool) (bytes : List Byte) :
    (encodedIndices bytes).length + paddingLength padded bytes.length = targetLength padded bytes.length := by
  induction bytes using list_induction_threes with
  | short l h =>
    rcases l with _ | ⟨b0, _ | ⟨b1, _ | ⟨b2, r⟩⟩⟩
    · simp [encodedIndices, paddingLength, targetLength_eq]
    · cases padded <;> simp [encodedIndices, paddingLength, targetLength_eq]
    · cases padded <;> simp [encodedIndices, paddingLength, targetLength_eq]
    · simp only [List.length_cons] at h
      omega
  | group b0 b1 b2 r ih =>
    simp only [encodedIndices, List.length_cons, paddingLength_add_three, targetLength_add_three]
    omega

/-- A whole encode ends with an output of the target length (R191). -/
theorem encodeAll_length (bytes : List Byte) (s : State) :
    ∃ out t, encodeAll bytes s = .next (out, t) ∧ out.length = targetLength (padEn s.ctrl) bytes.length := by
  obtain ⟨t, ht, -⟩ := encodeAll_gives bytes s
  refine ⟨_, t, ht, ?_⟩
  simp [encodedPadding, length_encodedIndices_add_paddingLength]

/-- Settles O47: the symbols and the padding together have the target length. -/
theorem encodeLengthIsTheTargetLength : Obligations.EncodeLengthIsTheTargetLength := by
  intro bytes s
  rw [← targetLength_eq]
  exact encodeAll_length bytes s

/-- The bytes of a buffer are whole groups and fewer than three bytes more (R192). -/
theorem exists_wholeGroups_append (l : List Byte) : ∃ x y, l = x ++ y ∧ x.length % 3 = 0 ∧ y.length < 3 := by
  refine ⟨l.take (l.length - l.length % 3), l.drop (l.length - l.length % 3), (List.take_append_drop _ l).symm, ?_, ?_⟩
  · rw [List.length_take]
    omega
  · rw [List.length_drop]
    omega

/-- The round whose fill reaches the end of the source encodes what is left (R192). -/
theorem chunkLoop_last {cap rounds : Nat} {more : Nat → Nat} {buf bytes : List Byte} {source : List (List Byte)}
    (hfill : fillUnits (cap - buf.length) (more rounds + 1) source = (bytes, [])) (s : State) :
    chunkLoop cap more (rounds + 1) buf source s = encodeSplit (buf ++ bytes) s := by
  rw [chunkLoop]
  simp [hfill]

/-- Another round sends the whole groups `x` of the filled buffer and goes on with the rest `y` (R192). -/
theorem chunkLoop_round {cap rounds : Nat} {more : Nat → Nat} {buf bytes x y : List Byte}
    {source rest : List (List Byte)} (hfill : fillUnits (cap - buf.length) (more rounds + 1) source = (bytes, rest))
    (hrest : rest ≠ []) (hbuf : buf ++ bytes = x ++ y) (hx : x.length % 3 = 0) (hy : y.length < 3) (s : State) :
    chunkLoop cap more (rounds + 1) buf source s =
      andThen (blockTransform x s) fun a s => andThen (chunkLoop cap more rounds y rest s) fun b s =>
        .next (a ++ b, s) := by
  have hgroups : (x ++ y).length - (x ++ y).length % 3 = x.length := by
    rw [List.length_append]
    omega
  rw [chunkLoop]
  simp only [hfill, hbuf, hgroups, List.take_left, List.drop_left, List.isEmpty_iff, if_neg hrest]

/-- Every fill moves a unit: each unit fits beside a remainder of two bytes (R195), or the whole source fits. -/
def FillsProgress (cap : Nat) (buf : List Byte) (source : List (List Byte)) : Prop :=
  (∀ u ∈ source, u.length + 2 ≤ cap) ∨ (buf ++ source.flatten).length ≤ cap

/-- The first unit fits the room that a remainder leaves. -/
theorem FillsProgress.unit_le {cap : Nat} {buf u : List Byte} {us : List (List Byte)}
    (h : FillsProgress cap buf (u :: us)) (hbuf : buf.length < 3) : u.length ≤ cap - buf.length := by
  rcases h with hunits | hall
  · have := hunits u List.mem_cons_self
    omega
  · simp only [List.flatten_cons, List.length_append] at hall
    omega

/-- A round leaves a source of which every fill moves a unit. -/
theorem FillsProgress.of_round {cap : Nat} {buf x y : List Byte} {source rest : List (List Byte)}
    (h : FillsProgress cap buf source) (hmem : ∀ u ∈ rest, u ∈ source)
    (hbytes : buf ++ source.flatten = x ++ (y ++ rest.flatten)) : FillsProgress cap y rest := by
  rcases h with hunits | hall
  · exact .inl fun u hu => hunits u (hmem u hu)
  · rw [hbytes, List.length_append] at hall
    exact .inr (by omega)

/-- Where every fill moves a unit, the loop is the encode split of the buffer and the source (R193). -/
theorem chunkLoop_eq_encodeSplit {cap : Nat} {more : Nat → Nat} {rounds : Nat} :
    ∀ {buf : List Byte} {source : List (List Byte)} (s : State), buf.length < 3 → source.length < rounds →
      FillsProgress cap buf source →
      chunkLoop cap more rounds buf source s = encodeSplit (buf ++ source.flatten) s := by
  induction rounds with
  | zero => exact fun s _ hrounds _ => absurd hrounds (Nat.not_lt_zero _)
  | succ r ih =>
    intro buf source s hbuf hrounds hprogress
    cases source with
    | nil => exact chunkLoop_last rfl s
    | cons u us =>
      have hless := fillUnits_progress us (show 0 < more r + 1 by omega) (hprogress.unit_le hbuf)
      obtain ⟨hflat, -, -, hmem⟩ := fillUnits_spec (u :: us) (cap - buf.length) (more r + 1)
      rcases hfill : fillUnits (cap - buf.length) (more r + 1) (u :: us) with ⟨bytes, rest⟩
      simp only [hfill] at hless hflat hmem
      rw [← hflat]
      by_cases hrest : rest = []
      · subst hrest
        simpa using chunkLoop_last hfill s
      · obtain ⟨x, y, hxy, hx, hy⟩ := exists_wholeGroups_append (buf ++ bytes)
        have hbytes : buf ++ (bytes ++ rest.flatten) = x ++ (y ++ rest.flatten) := by
          rw [← List.append_assoc, hxy, List.append_assoc]
        have hnext : FillsProgress cap y rest := hprogress.of_round hmem (hflat ▸ hbytes)
        rw [chunkLoop_round hfill hrest hxy hx hy, hbytes, encodeSplit_append _ _ _ hx]
        congr 1
        funext a t
        rw [ih t hy (by omega) hnext]

/-- Where every fill moves a unit, the Chunked Driver is the whole encode of the source's bytes (R193). -/
theorem encodeUnits_eq_encodeAll {cap : Nat} {units : List (List Byte)} (more : Nat → Nat) (s : State)
    (h : FillsProgress cap [] units) : encodeUnits cap more units s = encodeAll units.flatten s :=
  chunkLoop_eq_encodeSplit s (by decide) (Nat.lt_succ_self _) h

/-- A byte source is encoded whole by a buffer of three bytes, and by one that it fits (R193, R195). -/
theorem encodeChunked_eq_encodeAll {cap : Nat} {bytes : List Byte} (more : Nat → Nat) (s : State)
    (h : 3 ≤ cap ∨ bytes.length ≤ cap) : encodeChunked cap more bytes s = encodeAll bytes s := by
  have hflat : (bytes.map fun b => [b]).flatten = bytes := List.flatMap_singleton' bytes
  have hprogress : FillsProgress cap [] (bytes.map fun b => [b]) := by
    rcases h with hcap | hfits
    · refine .inl fun u hu => ?_
      obtain ⟨b, -, rfl⟩ := List.mem_map.1 hu
      exact hcap
    · exact .inr (by rwa [hflat])
  rw [encodeChunked, encodeUnits_eq_encodeAll more s hprogress, hflat]

/-- Settles O50: one byte fits beside any remainder in a buffer of three. -/
theorem chunkedEncodeEqualsWholeEncode : Obligations.ChunkedEncodeEqualsWholeEncode := by
  intro cap more bytes s hcap
  rw [encodeChunked_eq_encodeAll more s (.inl hcap)]
  exact ⟨rfl, encodeAll_length bytes s⟩

/-- Settles O51: a character of four bytes fits beside any remainder in a buffer of six. -/
theorem chunkedTextEncodeEqualsWholeEncode : Obligations.ChunkedTextEncodeEqualsWholeEncode := by
  intro cap more chars s hcap hchars
  have hprogress : FillsProgress cap [] chars := .inl fun u hu => by
    have := hchars u hu
    omega
  rw [encodeUnits_eq_encodeAll more s hprogress]
  obtain ⟨out, t, ht, -⟩ := encodeAll_length chars.flatten s
  exact ⟨rfl, out, t, ht⟩

/-- A fill of a byte source moves as many bytes as the room and the host's size allow (R192). -/
theorem fillUnits_bytes (bytes : List Byte) : ∀ room most,
    fillUnits room most (bytes.map fun b => [b]) =
      (bytes.take (min room most), (bytes.drop (min room most)).map fun b => [b]) := by
  induction bytes with
  | nil => simp [fillUnits]
  | cons b bs ih =>
    intro room most
    rw [List.map_cons, fillUnits]
    split
    case isTrue h =>
      obtain ⟨k, hk, hk'⟩ : ∃ k, min room most = k + 1 ∧ min (room - 1) (most - 1) = k := by
        simp only [List.length_singleton] at h
        exact ⟨min room most - 1, by omega, by omega⟩
      simp [ih, hk, hk']
    case isFalse h =>
      have hzero : min room most = 0 := by
        simp only [List.length_singleton] at h
        omega
      simp [hzero]

/-- A buffer below three bytes that the source does not fit: no round sends a group, and the loop runs out of
rounds (R195). -/
theorem chunkLoop_stuck {cap : Nat} {more : Nat → Nat} (hcap : cap < 3) (rounds : Nat) :
    ∀ {buf bytes : List Byte} (s : State), buf.length ≤ cap → cap < (buf ++ bytes).length →
      chunkLoop cap more rounds buf (bytes.map fun b => [b]) s = .fault .hostNoProgress := by
  induction rounds with
  | zero => exact fun _ _ _ => rfl
  | succ r ih =>
    intro buf bytes s hbuf hsource
    have hfill := fillUnits_bytes bytes (cap - buf.length) (more r + 1)
    have hmoved : min (cap - buf.length) (more r + 1) ≤ cap - buf.length := min_le_left _ _
    generalize min (cap - buf.length) (more r + 1) = k at hfill hmoved
    rw [List.length_append] at hsource
    have hbuf' : (buf ++ bytes.take k).length ≤ cap := by
      rw [List.length_append, List.length_take]
      omega
    have hrest : (bytes.drop k).map (fun b => [b]) ≠ [] := by
      rw [Ne, List.map_eq_nil_iff, List.drop_eq_nil_iff]
      omega
    have hsource' : cap < (buf ++ bytes.take k ++ bytes.drop k).length := by
      rwa [List.append_assoc, List.take_append_drop, List.length_append]
    rw [chunkLoop_round hfill hrest (List.nil_append _).symm rfl (by omega), blockTransform_short (by decide),
      andThen_next, ih s hbuf' hsource']
    rfl

/-- Settles O52: a source that fits is taken whole, one that does not leaves a full buffer without a group. -/
theorem smallBufferMakesNoProgress : Obligations.SmallBufferMakesNoProgress := by
  intro cap more bytes s hcap
  exact ⟨chunkLoop_stuck (buf := []) hcap _ s (Nat.zero_le _), fun h => encodeChunked_eq_encodeAll more s (.inr h)⟩

end Sys2Proof.Machine
end

section
/-! The decode commands (spec/44_decode.md R220-R229): what each answers in each of its cases, by the padding pattern
and the OOB of the lanes it reads. -/

namespace Sys2Proof.Machine

/-- `D` of lane `k` of DIN, as the index that the byte formulas take (R221). -/
def operandIndex (s : State) (k : Nat) : Index := decodeValue s.alpha (lane s.din k)

/-- The terms of the statements read the decode value of a lane as its number. -/
theorem operandValue_eq (s : State) (k : Nat) : operandValue s k = (operandIndex s k).toNat := rfl

/-- A decode command whose symbols pass the last test does what R41 says. -/
theorem finishDecode_completedWith (r : Word) (n : BitVec 3) {s : State} {o : Bool}
    (h : strict s.ctrl = false ∨ o = false) : CompletedWith s (finishDecode r n o s) r n o := by
  rw [finishDecode_complete r n h]
  exact complete_completedWith r n o s

/-- A decode command whose symbols do not pass it fails with SYMBOL (R224, R301). -/
theorem finishDecode_failedWith (r : Word) (n : BitVec 3) {s : State} {o : Bool}
    (h : ¬(strict s.ctrl = false ∨ o = false)) : FailedWith s (finishDecode r n o s) 4 true := by
  rw [finishDecode_fail r n h]
  exact fail_failedWith .symbol true s

/-- In strict mode an OOB symbol does not pass the last test. -/
theorem not_passes {s : State} {o : Bool} (hs : strict s.ctrl = true) (ho : o = true) :
    ¬(strict s.ctrl = false ∨ o = false) := by
  simp [hs, ho]

/-- No lane of a group is padding, said of its lanes and of their symbols (R226). -/
theorem operands_noPad_iff (s : State) :
    (∀ k < 4, operandIsPad s k = false) ↔ ∀ c ∈ lanes s.din 4, isPad s.ctrl s.alpha c = false := by
  simp [lanes, operandIsPad]

/-- DECG looks for padding in all four lanes (R226). -/
theorem operands_any_isPad (s : State) :
    [lane s.din 0, lane s.din 1, lane s.din 2, lane s.din 3].any (isPad s.ctrl s.alpha) = true ↔
      ¬∀ k < 4, operandIsPad s k = false := by
  change (lanes s.din 4).any (isPad s.ctrl s.alpha) = true ↔ _
  simp [operands_noPad_iff, -lanes_four]

/-- DECG on a group without padding (R226). -/
theorem exec_decg_of_noPad {s : State} (h : ∀ k < 4, operandIsPad s k = false) :
    exec .decg s = .next (finishDecode (word (byte0 (operandIndex s 0) (operandIndex s 1))
      (byte1 (operandIndex s 1) (operandIndex s 2)) (byte2 (operandIndex s 2) (operandIndex s 3)) 0) 3
      (operandOob s 4) s) :=
  if_neg fun hany => (operands_any_isPad s).1 hany h

/-- DECG on a group with padding (R224, R226). -/
theorem exec_decg_of_pad {s : State} (h : ¬∀ k < 4, operandIsPad s k = false) :
    exec .decg s = .next (fail .padding (operandOob s 4) s) :=
  if_pos ((operands_any_isPad s).2 h)

/-- Settles O17: the padding test comes first, and the last test decides the rest. -/
theorem decgDecodesAFullGroup : Obligations.DecgDecodesAFullGroup :=
  ⟨decode_encode .decg, fun s =>
    ⟨fun hpad hpass => ⟨_, exec_decg_of_noPad hpad, finishDecode_completedWith _ 3 hpass⟩,
      fun hpad hs ho => ⟨_, exec_decg_of_noPad hpad, finishDecode_failedWith _ 3 (not_passes hs ho)⟩,
      fun hpad => ⟨_, exec_decg_of_pad hpad, fail_failedWith .padding (operandOob s 4) s⟩⟩⟩

/-- The padding pattern of the final group (R227). -/
def operandPattern (s : State) : Option Nat :=
  finalGroupCount (operandIsPad s 0) (operandIsPad s 1) (operandIsPad s 2) (operandIsPad s 3)

/-- DECG.L on a group whose padding is misplaced (R227). -/
theorem exec_decgL_misplaced {s : State} (h : operandPattern s = none) :
    exec .decgL s = .next (fail .padding (operandOob s 4) s) := by
  simp only [operandPattern, operandIsPad] at h
  simp only [exec, execDecgL, h]
  rfl

/-- DECG.L on a group whose padding leaves `n` bytes (R227). -/
theorem exec_decgL_of_pattern {s : State} {n : Nat} (h : operandPattern s = some n) :
    exec .decgL s = .next (finishDecode (firstBytes n
      (byte0 (finalValue s.alpha n 0 (lane s.din 0)) (finalValue s.alpha n 1 (lane s.din 1)))
      (byte1 (finalValue s.alpha n 1 (lane s.din 1)) (finalValue s.alpha n 2 (lane s.din 2)))
      (byte2 (finalValue s.alpha n 2 (lane s.din 2)) (finalValue s.alpha n 3 (lane s.din 3))))
      (BitVec.ofNat 3 n) (operandOob s 4) s) := by
  simp only [operandPattern, operandIsPad] at h
  simp only [exec, execDecgL, h]
  rfl

/-- DECG.L on a group without padding (R227). -/
theorem exec_decgL_of_three {s : State} (h : operandPattern s = some 3) :
    exec .decgL s = .next (finishDecode (word (byte0 (operandIndex s 0) (operandIndex s 1))
      (byte1 (operandIndex s 1) (operandIndex s 2)) (byte2 (operandIndex s 2) (operandIndex s 3)) 0) 3
      (operandOob s 4) s) := by
  simpa [firstBytes, finalValue, operandIndex] using exec_decgL_of_pattern h

/-- DECG.L on a group whose last symbol is padding: two bytes (R227). -/
theorem exec_decgL_of_two {s : State} (h : operandPattern s = some 2) :
    exec .decgL s = .next (finishDecode (word (byte0 (operandIndex s 0) (operandIndex s 1))
      (byte1 (operandIndex s 1) (operandIndex s 2)) 0 0) 2 (operandOob s 4) s) := by
  simpa [firstBytes, finalValue, operandIndex] using exec_decgL_of_pattern h

/-- DECG.L on a group whose last two symbols are padding: one byte (R227). -/
theorem exec_decgL_of_one {s : State} (h : operandPattern s = some 1) :
    exec .decgL s = .next (finishDecode (word (byte0 (operandIndex s 0) (operandIndex s 1)) 0 0 0) 1
      (operandOob s 4) s) := by
  simpa [firstBytes, finalValue, operandIndex] using exec_decgL_of_pattern h

/-- The padding patterns that pass and the bytes they leave (R227). -/
theorem finalGroupCount_spec : ∀ p0 p1 p2 p3 : Bool,
    (finalGroupCount p0 p1 p2 p3 = some 3 ↔ p0 = false ∧ p1 = false ∧ p2 = false ∧ p3 = false) ∧
    (finalGroupCount p0 p1 p2 p3 = some 2 ↔ p0 = false ∧ p1 = false ∧ p2 = false ∧ p3 = true) ∧
    (finalGroupCount p0 p1 p2 p3 = some 1 ↔ p0 = false ∧ p1 = false ∧ p2 = true ∧ p3 = true) ∧
    (finalGroupCount p0 p1 p2 p3 = none ∨ finalGroupCount p0 p1 p2 p3 = some 3 ∨
      finalGroupCount p0 p1 p2 p3 = some 2 ∨ finalGroupCount p0 p1 p2 p3 = some 1) := by
  decide

/-- Settles O18: the padding pattern is tested first, and the last test decides the rest. -/
theorem decgLDecodesTheFinalGroup : Obligations.DecgLDecodesTheFinalGroup := by
  refine ⟨decode_encode .decgL, fun s => ?_⟩
  obtain ⟨h3, h2, h1, hnone⟩ := finalGroupCount_spec (operandIsPad s 0) (operandIsPad s 1) (operandIsPad s 2)
    (operandIsPad s 3)
  simp only [← h3, ← h2, ← h1]
  refine ⟨fun h hpass => ⟨_, exec_decgL_of_three h, finishDecode_completedWith _ 3 hpass⟩,
    fun h hpass => ⟨_, exec_decgL_of_two h, finishDecode_completedWith _ 2 hpass⟩,
    fun h hpass => ⟨_, exec_decgL_of_one h, finishDecode_completedWith _ 1 hpass⟩, fun h hpass => ?_,
    fun h => ⟨_, exec_decgL_misplaced (hnone.resolve_right h), fail_failedWith .padding _ s⟩⟩
  rcases h with h | h | h <;>
    exact ⟨_, exec_decgL_of_pattern h, finishDecode_failedWith _ _ hpass⟩

/-- On a group without padding DECG.L is DECG (R227, 92 D18). -/
theorem exec_decgL_of_noPad {s : State} (h : ∀ k < 4, operandIsPad s k = false) : exec .decgL s = exec .decg s := by
  obtain ⟨hthree, -⟩ := finalGroupCount_spec (operandIsPad s 0) (operandIsPad s 1) (operandIsPad s 2)
    (operandIsPad s 3)
  have hpattern : operandPattern s = some 3 :=
    hthree.2 ⟨h 0 (by decide), h 1 (by decide), h 2 (by decide), h 3 (by decide)⟩
  rw [exec_decgL_of_three hpattern, exec_decg_of_noPad h]

/-- Settles O34: in unpadded mode no symbol is padding. -/
theorem decgLIsDecgInUnpaddedMode : Obligations.DecgLIsDecgInUnpaddedMode :=
  fun s h => ⟨exec_decgL_of_noPad fun _ _ => isPad_unpadded h _ _, exec_next .decg s⟩

/-- DECT2 in padded mode (R228). -/
theorem exec_dect2_padded {s : State} (h : padEn s.ctrl = true) :
    exec .dect2 s = .next (fail .length (operandOob s 2) s) :=
  if_pos h

/-- DECT2 in unpadded mode (R228). -/
theorem exec_dect2_unpadded {s : State} (h : padEn s.ctrl = false) :
    exec .dect2 s = .next (finishDecode (word (byte0 (operandIndex s 0) (operandIndex s 1)) 0 0 0) 1
      (operandOob s 2) s) :=
  if_neg (Bool.eq_false_iff.1 h)

/-- DECT3 in padded mode (R229). -/
theorem exec_dect3_padded {s : State} (h : padEn s.ctrl = true) :
    exec .dect3 s = .next (fail .length (operandOob s 3) s) :=
  if_pos h

/-- DECT3 in unpadded mode (R229). -/
theorem exec_dect3_unpadded {s : State} (h : padEn s.ctrl = false) :
    exec .dect3 s = .next (finishDecode (word (byte0 (operandIndex s 0) (operandIndex s 1))
      (byte1 (operandIndex s 1) (operandIndex s 2)) 0 0) 2 (operandOob s 3) s) :=
  if_neg (Bool.eq_false_iff.1 h)

/-- Settles O19: the mode is tested first, and the last test decides the rest. -/
theorem dectTwoDecodesATwoSymbolTail : Obligations.DectTwoDecodesATwoSymbolTail :=
  ⟨decode_encode .dect2, fun s =>
    ⟨fun hp hpass => ⟨_, exec_dect2_unpadded hp, finishDecode_completedWith _ 1 hpass⟩,
      fun hp hs ho => ⟨_, exec_dect2_unpadded hp, finishDecode_failedWith _ 1 (not_passes hs ho)⟩,
      fun hp => ⟨_, exec_dect2_padded hp, fail_failedWith .length (operandOob s 2) s⟩⟩⟩

/-- Settles O20: the mode is tested first, and the last test decides the rest. -/
theorem dectThreeDecodesAThreeSymbolTail : Obligations.DectThreeDecodesAThreeSymbolTail :=
  ⟨decode_encode .dect3, fun s =>
    ⟨fun hp hpass => ⟨_, exec_dect3_unpadded hp, finishDecode_completedWith _ 2 hpass⟩,
      fun hp hs ho => ⟨_, exec_dect3_unpadded hp, finishDecode_failedWith _ 2 (not_passes hs ho)⟩,
      fun hp => ⟨_, exec_dect3_padded hp, fail_failedWith .length (operandOob s 3) s⟩⟩⟩

end Sys2Proof.Machine
end

section
/-! The decode length (spec/44_decode.md R230): the lengths that an encode of the mode has, and what DLEN answers. -/

namespace Sys2Proof.Machine

/-- A length that an encode of the mode has (R230, R240). -/
def DecodableLength (padded : Bool) (n : Nat) : Prop := if padded then n % 4 = 0 else n % 4 ≠ 1

@[simp] theorem decodableLength_padded (n : Nat) : DecodableLength true n ↔ n % 4 = 0 := Iff.rfl

@[simp] theorem decodableLength_unpadded (n : Nat) : DecodableLength false n ↔ n % 4 ≠ 1 := by
  simp [DecodableLength]

/-- DLEN of an empty input (R230). -/
theorem exec_dlen_empty {s : State} (h : s.din.toNat = 0) : exec .dlen s = .next (fail .empty false s) :=
  if_pos h

/-- DLEN of a length that no encode of the mode has (R230). -/
theorem exec_dlen_length {s : State} (h : ¬DecodableLength (padEn s.ctrl) s.din.toNat) :
    exec .dlen s = .next (fail .length false s) := by
  have h0 : s.din.toNat ≠ 0 := fun h0 => h (by cases padEn s.ctrl <;> simp [h0])
  cases hp : padEn s.ctrl with
  | true =>
    have hn : s.din.toNat % 4 ≠ 0 := by simpa [hp] using h
    simp [exec, execDlen, hp, h0, hn]
  | false =>
    have hn : s.din.toNat % 4 = 1 := by simpa [hp] using h
    simp [exec, execDlen, hp, h0, hn]

/-- DLEN of a length that some encode of the mode has (R230). In padded mode there is no remainder, so the formula of
the unpadded mode gives the length in either mode. -/
theorem exec_dlen_decodable {s : State} (h0 : s.din.toNat ≠ 0) (h : DecodableLength (padEn s.ctrl) s.din.toNat) :
    exec .dlen s =
      .next (complete (BitVec.ofNat 32 (s.din.toNat / 4 * 3 + extraBytes (s.din.toNat % 4))) 0 false s) := by
  cases hp : padEn s.ctrl with
  | true =>
    have hn : s.din.toNat % 4 = 0 := by simpa [hp] using h
    simp [exec, execDlen, hp, h0, hn, extraBytes]
  | false =>
    have hn : s.din.toNat % 4 ≠ 1 := by simpa [hp] using h
    simp [exec, execDlen, hp, h0, hn]

/-- The output length of an input length that fits 32 bits fits them too (R230). -/
theorem outputLength_lt {n : Nat} (h : n < 2 ^ 32) : n / 4 * 3 + extraBytes (n % 4) < 2 ^ 32 := by
  rw [extraBytes_eq]
  split_ifs <;> omega

/-- DLEN of a decodable length completes with an output length that is exact (R230). -/
theorem exec_dlen_completedWith {s : State} (h0 : s.din.toNat ≠ 0) (h : DecodableLength (padEn s.ctrl) s.din.toNat) :
    ∃ t, exec .dlen s = .next t ∧
      CompletedWith s t (BitVec.ofNat 32 (s.din.toNat / 4 * 3 + extraBytes (s.din.toNat % 4))) 0 false ∧
      t.dout.toNat = s.din.toNat / 4 * 3 + extraBytes (s.din.toNat % 4) := by
  refine ⟨_, exec_dlen_decodable h0 h, complete_completedWith _ 0 false s, ?_⟩
  rw [complete_dout, BitVec.toNat_ofNat, Nat.mod_eq_of_lt (outputLength_lt s.din.isLt)]

/-- Settles O21: the empty length, the lengths that are not decodable and those that are, in each mode. -/
theorem dlenChecksTheLength : Obligations.DlenChecksTheLength := by
  refine ⟨decode_encode .dlen, fun s => ⟨fun h0 => ?_, fun h0 hp hn => ?_, fun h0 hp hn => ?_, fun hp hn => ?_,
    fun h0 hp hn => ?_⟩⟩
  · exact ⟨_, exec_dlen_empty h0, fail_failedWith .empty false s⟩
  · exact ⟨_, exec_dlen_length (by simpa [hp] using hn), fail_failedWith .length false s⟩
  · simpa [hn, extraBytes] using exec_dlen_completedWith h0 (by simpa [hp] using hn)
  · exact ⟨_, exec_dlen_length (by simpa [hp] using hn), fail_failedWith .length false s⟩
  · simpa only [extraBytes_eq] using exec_dlen_completedWith h0 (by simpa [hp] using hn)

end Sys2Proof.Machine
end

section
/-! The decode commands on alphabet symbols (spec/44_decode.md R222-R225): no symbol is padding by accident and none is
OOB, so each command that admits the pattern completes, with the bytes of the decode values. -/

namespace Sys2Proof.Machine

/-- The class of the alphabet, by the two tests (R220). -/
theorem classify_eq_alphabet_iff (ctrl alpha : Word) (c : Byte) :
    classify ctrl alpha c = .alphabet ↔ isPad ctrl alpha c = false ∧ inAlphabet alpha c = true := by
  obtain ⟨-, halphabet, -⟩ := classify_spec ctrl alpha c
  exact halphabet

/-- A symbol of the alphabet is not padding (R220). -/
theorem isPad_of_classify {ctrl alpha : Word} {c : Byte} (h : classify ctrl alpha c = .alphabet) :
    isPad ctrl alpha c = false := by
  obtain ⟨hpad, -⟩ := (classify_eq_alphabet_iff ctrl alpha c).1 h
  exact hpad

/-- A symbol of the alphabet is no OOB byte (R43, R220). -/
theorem isOob_of_classify {ctrl alpha : Word} {c : Byte} (h : classify ctrl alpha c = .alphabet) :
    isOob ctrl alpha c = false := by
  rw [Bool.eq_false_iff, Ne, isOob_iff_classify, h]
  decide

/-- In padded mode the padding symbol is padding (R34). -/
theorem isPad_padByte {ctrl : Word} (h : padEn ctrl = true) (alpha : Word) :
    isPad ctrl alpha (padByte alpha) = true :=
  (isPad_iff ctrl alpha _).2 ⟨h, rfl⟩

/-- Padding is no OOB byte (R43). -/
theorem isOob_of_isPad {ctrl alpha : Word} {c : Byte} (h : isPad ctrl alpha c = true) : isOob ctrl alpha c = false := by
  simp [isOob, h]

/-- Under a well-formed configuration the symbol of an index is in the class of the alphabet (R37, R220). -/
theorem WellFormedConfig.classify_symbolByte {ctrl alpha : Word} (h : WellFormedConfig ctrl alpha) (i : Index) :
    classify ctrl alpha (symbolByte alpha i) = .alphabet :=
  (classify_eq_alphabet_iff ctrl alpha _).2 ⟨h.isPad_symbolByte i, inAlphabet_symbolByte alpha i⟩

section
variable {s : State} {c0 c1 c2 l2 l3 : Byte}

/-- DECT2 on two alphabet symbols in padded mode: no OOB is reported (R228). -/
theorem exec_dect2_padded_alphabet (hp : padEn s.ctrl = true) (h0 : classify s.ctrl s.alpha c0 = .alphabet)
    (h1 : classify s.ctrl s.alpha c1 = .alphabet) (hd : s.din = word c0 c1 l2 l3) :
    exec .dect2 s = .next (fail .length false s) := by
  have hoob : operandOob s 2 = false := by simp [operandOob, anyOob, hd, isOob_of_classify, h0, h1]
  rw [exec_dect2_padded hp, hoob]

/-- DECT2 on two alphabet symbols (R228). -/
theorem exec_dect2_alphabet (hp : padEn s.ctrl = false) (h0 : classify s.ctrl s.alpha c0 = .alphabet)
    (h1 : classify s.ctrl s.alpha c1 = .alphabet) (hd : s.din = word c0 c1 l2 l3) :
    exec .dect2 s =
      .next (complete (word (byte0 (decodeValue s.alpha c0) (decodeValue s.alpha c1)) 0 0 0) 1 false s) := by
  have hoob : operandOob s 2 = false := by simp [operandOob, anyOob, hd, isOob_of_classify, h0, h1]
  rw [exec_dect2_unpadded hp, hoob, finishDecode_complete _ _ (.inr rfl)]
  simp [operandIndex, hd]

/-- DECT3 on three alphabet symbols in padded mode: no OOB is reported (R229). -/
theorem exec_dect3_padded_alphabet (hp : padEn s.ctrl = true) (h0 : classify s.ctrl s.alpha c0 = .alphabet)
    (h1 : classify s.ctrl s.alpha c1 = .alphabet) (h2 : classify s.ctrl s.alpha c2 = .alphabet)
    (hd : s.din = word c0 c1 c2 l3) : exec .dect3 s = .next (fail .length false s) := by
  have hoob : operandOob s 3 = false := by simp [operandOob, anyOob, hd, isOob_of_classify, h0, h1, h2]
  rw [exec_dect3_padded hp, hoob]

/-- DECT3 on three alphabet symbols (R229). -/
theorem exec_dect3_alphabet (hp : padEn s.ctrl = false) (h0 : classify s.ctrl s.alpha c0 = .alphabet)
    (h1 : classify s.ctrl s.alpha c1 = .alphabet) (h2 : classify s.ctrl s.alpha c2 = .alphabet)
    (hd : s.din = word c0 c1 c2 l3) :
    exec .dect3 s = .next (complete (word (byte0 (decodeValue s.alpha c0) (decodeValue s.alpha c1))
      (byte1 (decodeValue s.alpha c1) (decodeValue s.alpha c2)) 0 0) 2 false s) := by
  have hoob : operandOob s 3 = false := by simp [operandOob, anyOob, hd, isOob_of_classify, h0, h1, h2]
  rw [exec_dect3_unpadded hp, hoob, finishDecode_complete _ _ (.inr rfl)]
  simp [operandIndex, hd]

/-- DECG.L on two alphabet symbols and two padding symbols (R227). -/
theorem exec_decgL_alphabet_two (hp : padEn s.ctrl = true) (h0 : classify s.ctrl s.alpha c0 = .alphabet)
    (h1 : classify s.ctrl s.alpha c1 = .alphabet) (hd : s.din = word c0 c1 (padByte s.alpha) (padByte s.alpha)) :
    exec .decgL s =
      .next (complete (word (byte0 (decodeValue s.alpha c0) (decodeValue s.alpha c1)) 0 0 0) 1 false s) := by
  have hpad := isPad_padByte hp s.alpha
  have hpattern : operandPattern s = some 1 := by
    simp [operandPattern, operandIsPad, finalGroupCount, hd, isPad_of_classify, h0, h1, hpad]
  have hoob : operandOob s 4 = false := by
    simp [operandOob, anyOob, hd, isOob_of_classify, h0, h1, isOob_of_isPad hpad]
  rw [exec_decgL_of_one hpattern, hoob, finishDecode_complete _ _ (.inr rfl)]
  simp [operandIndex, hd]

/-- DECG.L on three alphabet symbols and one padding symbol (R227). -/
theorem exec_decgL_alphabet_three (hp : padEn s.ctrl = true) (h0 : classify s.ctrl s.alpha c0 = .alphabet)
    (h1 : classify s.ctrl s.alpha c1 = .alphabet) (h2 : classify s.ctrl s.alpha c2 = .alphabet)
    (hd : s.din = word c0 c1 c2 (padByte s.alpha)) :
    exec .decgL s = .next (complete (word (byte0 (decodeValue s.alpha c0) (decodeValue s.alpha c1))
      (byte1 (decodeValue s.alpha c1) (decodeValue s.alpha c2)) 0 0) 2 false s) := by
  have hpad := isPad_padByte hp s.alpha
  have hpattern : operandPattern s = some 2 := by
    simp [operandPattern, operandIsPad, finalGroupCount, hd, isPad_of_classify, h0, h1, h2, hpad]
  have hoob : operandOob s 4 = false := by
    simp [operandOob, anyOob, hd, isOob_of_classify, h0, h1, h2, isOob_of_isPad hpad]
  rw [exec_decgL_of_two hpattern, hoob, finishDecode_complete _ _ (.inr rfl)]
  simp [operandIndex, hd]

end

end Sys2Proof.Machine
end

section
/-! The discarded bits (spec/44_decode.md R225): a byte takes the high bits of its second value only. -/

namespace Sys2Proof.Machine

theorem byte0_congr (v0 : Index) {v1 w1 : Index} (h : v1.toNat / 16 = w1.toNat / 16) : byte0 v0 v1 = byte0 v0 w1 := by
  apply BitVec.eq_of_toNat_eq
  rw [byte0_toNat, byte0_toNat, h]

theorem byte1_congr (v1 : Index) {v2 w2 : Index} (h : v2.toNat / 4 = w2.toNat / 4) : byte1 v1 v2 = byte1 v1 w2 := by
  apply BitVec.eq_of_toNat_eq
  rw [byte1_toNat, byte1_toNat, h]

/-- Two operands of a command leave the same state but for DIN, which stays as it was written. -/
def SameButDin (s : State) (i : Instr) (x y : Word) : Prop :=
  ∃ t u, exec i { s with din := x } = .next t ∧ exec i { s with din := y } = .next u ∧
    t.din = x ∧ u = { t with din := y }

theorem SameButDin.of_complete {s : State} {i : Instr} {x y r : Word} {n : BitVec 3} {o : Bool}
    (hx : exec i { s with din := x } = .next (complete r n o { s with din := x }))
    (hy : exec i { s with din := y } = .next (complete r n o { s with din := y })) : SameButDin s i x y :=
  ⟨_, _, hx, hy, rfl, rfl⟩

theorem SameButDin.of_fail {s : State} {i : Instr} {x y : Word} {c : Cause} {o : Bool}
    (hx : exec i { s with din := x } = .next (fail c o { s with din := x }))
    (hy : exec i { s with din := y } = .next (fail c o { s with din := y })) : SameButDin s i x y :=
  ⟨_, _, hx, hy, rfl, rfl⟩

section
variable {s : State} {c0 c1 c2 d1 d2 : Byte}

/-- Two 2-symbol tails whose second values agree above the low 4 bits (R225, R228). -/
theorem dect2_sameButDin (h0 : classify s.ctrl s.alpha c0 = .alphabet) (hc : classify s.ctrl s.alpha c1 = .alphabet)
    (hd : classify s.ctrl s.alpha d1 = .alphabet)
    (hv : (decodeValue s.alpha c1).toNat / 16 = (decodeValue s.alpha d1).toNat / 16) :
    SameButDin s .dect2 (word c0 c1 0 0) (word c0 d1 0 0) := by
  cases hp : padEn s.ctrl with
  | true =>
    exact .of_fail (exec_dect2_padded_alphabet (s := { s with din := _ }) hp h0 hc rfl)
      (exec_dect2_padded_alphabet (s := { s with din := _ }) hp h0 hd rfl)
  | false =>
    refine .of_complete (exec_dect2_alphabet (s := { s with din := _ }) hp h0 hc rfl) ?_
    rw [byte0_congr _ hv]
    exact exec_dect2_alphabet (s := { s with din := _ }) hp h0 hd rfl

/-- Two 3-symbol tails whose third values agree above the low 2 bits (R225, R229). -/
theorem dect3_sameButDin (h0 : classify s.ctrl s.alpha c0 = .alphabet) (h1 : classify s.ctrl s.alpha c1 = .alphabet)
    (hc : classify s.ctrl s.alpha c2 = .alphabet) (hd : classify s.ctrl s.alpha d2 = .alphabet)
    (hv : (decodeValue s.alpha c2).toNat / 4 = (decodeValue s.alpha d2).toNat / 4) :
    SameButDin s .dect3 (word c0 c1 c2 0) (word c0 c1 d2 0) := by
  cases hp : padEn s.ctrl with
  | true =>
    exact .of_fail (exec_dect3_padded_alphabet (s := { s with din := _ }) hp h0 h1 hc rfl)
      (exec_dect3_padded_alphabet (s := { s with din := _ }) hp h0 h1 hd rfl)
  | false =>
    refine .of_complete (exec_dect3_alphabet (s := { s with din := _ }) hp h0 h1 hc rfl) ?_
    rw [byte1_congr _ hv]
    exact exec_dect3_alphabet (s := { s with din := _ }) hp h0 h1 hd rfl

/-- The same of a final group with two padding symbols (R225, R227). -/
theorem decgL_two_sameButDin (hp : padEn s.ctrl = true) (h0 : classify s.ctrl s.alpha c0 = .alphabet)
    (hc : classify s.ctrl s.alpha c1 = .alphabet) (hd : classify s.ctrl s.alpha d1 = .alphabet)
    (hv : (decodeValue s.alpha c1).toNat / 16 = (decodeValue s.alpha d1).toNat / 16) :
    SameButDin s .decgL (word c0 c1 (padByte s.alpha) (padByte s.alpha))
      (word c0 d1 (padByte s.alpha) (padByte s.alpha)) := by
  refine .of_complete (exec_decgL_alphabet_two (s := { s with din := _ }) hp h0 hc rfl) ?_
  rw [byte0_congr _ hv]
  exact exec_decgL_alphabet_two (s := { s with din := _ }) hp h0 hd rfl

/-- The same of a final group with one padding symbol (R225, R227). -/
theorem decgL_three_sameButDin (hp : padEn s.ctrl = true) (h0 : classify s.ctrl s.alpha c0 = .alphabet)
    (h1 : classify s.ctrl s.alpha c1 = .alphabet) (hc : classify s.ctrl s.alpha c2 = .alphabet)
    (hd : classify s.ctrl s.alpha d2 = .alphabet)
    (hv : (decodeValue s.alpha c2).toNat / 4 = (decodeValue s.alpha d2).toNat / 4) :
    SameButDin s .decgL (word c0 c1 c2 (padByte s.alpha)) (word c0 c1 d2 (padByte s.alpha)) := by
  refine .of_complete (exec_decgL_alphabet_three (s := { s with din := _ }) hp h0 h1 hc rfl) ?_
  rw [byte1_congr _ hv]
  exact exec_decgL_alphabet_three (s := { s with din := _ }) hp h0 h1 hd rfl

end

/-- Settles O35: the last byte of a tail takes the high bits of the last value only. -/
theorem discardedBitsAreNotChecked : Obligations.DiscardedBitsAreNotChecked := by
  intro s c0 c1 c2 d1 d2
  dsimp only
  intro hsymbols
  obtain ⟨h0, h1, h2, h1', h2'⟩ : classify s.ctrl s.alpha c0 = .alphabet ∧ classify s.ctrl s.alpha c1 = .alphabet ∧
      classify s.ctrl s.alpha c2 = .alphabet ∧ classify s.ctrl s.alpha d1 = .alphabet ∧
      classify s.ctrl s.alpha d2 = .alphabet := by
    simpa [and_comm, classify_eq_alphabet_iff] using hsymbols
  exact ⟨fun hv => ⟨dect2_sameButDin h0 h1 h1' hv, fun hp => decgL_two_sameButDin hp h0 h1 h1' hv⟩,
    fun hv => ⟨dect3_sameButDin h0 h1 h2 h2' hv, fun hp => decgL_three_sameButDin hp h0 h1 h2 h2' hv⟩⟩

end Sys2Proof.Machine
end

section
/-! The round trip of a tail (spec/42_encode_tail.md R161, R162; spec/44_decode.md R223, R227-R229): a tail's indices
give its bytes back, and the decode command of the mode reads them from the symbols. -/

namespace Sys2Proof.Machine

/-- The byte of a 1-byte tail comes back from its two indices (R161, R223). -/
theorem byte0_tailIndex1 (b0 : Byte) : byte0 (index0 b0) (tailIndex1 b0) = b0 := by
  rw [tailIndex1_eq, byte0_index]

/-- The first byte of a 2-byte tail comes back from its first two indices (R162, R223). -/
theorem byte0_tailIndex1Of2 (b0 b1 : Byte) : byte0 (index0 b0) (tailIndex1Of2 b0 b1) = b0 := by
  rw [tailIndex1Of2_eq, byte0_index]

/-- The second byte of a 2-byte tail comes back from its last two indices (R162, R223). -/
theorem byte1_tailIndex2 (b0 b1 : Byte) : byte1 (tailIndex1Of2 b0 b1) (tailIndex2 b1) = b1 := by
  rw [tailIndex1Of2_eq, tailIndex2_eq, byte1_index]

section
variable {s : State} {b0 b1 l2 l3 : Byte}

/-- DECG.L on the padded symbols of a 1-byte tail (R227). -/
theorem exec_decgL_of_enct1 (h : WellFormedConfig s.ctrl s.alpha) (hp : padEn s.ctrl = true)
    (hd : s.din = word (symbolByte s.alpha (index0 b0)) (symbolByte s.alpha (tailIndex1 b0))
      (padByte s.alpha) (padByte s.alpha)) :
    exec .decgL s = .next (complete (word b0 0 0 0) 1 false s) := by
  rw [exec_decgL_alphabet_two hp (h.classify_symbolByte _) (h.classify_symbolByte _) hd, h.decodeValue_symbolByte,
    h.decodeValue_symbolByte, byte0_tailIndex1]

/-- DECT2 on the symbols of a 1-byte tail (R228). -/
theorem exec_dect2_of_enct1 (h : WellFormedConfig s.ctrl s.alpha) (hp : padEn s.ctrl = false)
    (hd : s.din = word (symbolByte s.alpha (index0 b0)) (symbolByte s.alpha (tailIndex1 b0)) l2 l3) :
    exec .dect2 s = .next (complete (word b0 0 0 0) 1 false s) := by
  rw [exec_dect2_alphabet hp (h.classify_symbolByte _) (h.classify_symbolByte _) hd, h.decodeValue_symbolByte,
    h.decodeValue_symbolByte, byte0_tailIndex1]

/-- DECG.L on the padded symbols of a 2-byte tail (R227). -/
theorem exec_decgL_of_enct2 (h : WellFormedConfig s.ctrl s.alpha) (hp : padEn s.ctrl = true)
    (hd : s.din = word (symbolByte s.alpha (index0 b0)) (symbolByte s.alpha (tailIndex1Of2 b0 b1))
      (symbolByte s.alpha (tailIndex2 b1)) (padByte s.alpha)) :
    exec .decgL s = .next (complete (word b0 b1 0 0) 2 false s) := by
  rw [exec_decgL_alphabet_three hp (h.classify_symbolByte _) (h.classify_symbolByte _) (h.classify_symbolByte _) hd,
    h.decodeValue_symbolByte, h.decodeValue_symbolByte, h.decodeValue_symbolByte, byte0_tailIndex1Of2,
    byte1_tailIndex2]

/-- DECT3 on the symbols of a 2-byte tail (R229). -/
theorem exec_dect3_of_enct2 (h : WellFormedConfig s.ctrl s.alpha) (hp : padEn s.ctrl = false)
    (hd : s.din = word (symbolByte s.alpha (index0 b0)) (symbolByte s.alpha (tailIndex1Of2 b0 b1))
      (symbolByte s.alpha (tailIndex2 b1)) l3) :
    exec .dect3 s = .next (complete (word b0 b1 0 0) 2 false s) := by
  rw [exec_dect3_alphabet hp (h.classify_symbolByte _) (h.classify_symbolByte _) (h.classify_symbolByte _) hd,
    h.decodeValue_symbolByte, h.decodeValue_symbolByte, h.decodeValue_symbolByte, byte0_tailIndex1Of2,
    byte1_tailIndex2]

end

/-- The decode command of the mode undoes ENCT1. -/
theorem exec_enct1_decode {s : State} (h : WellFormedConfig s.ctrl s.alpha) :
    ∃ t, exec .enct1 s = .next t ∧ exec (if padEn s.ctrl then .decgL else .dect2) { t with din := t.dout } =
      .next (complete (word (lane s.din 0) 0 0 0) 1 false { t with din := t.dout }) := by
  cases hp : padEn s.ctrl with
  | true => exact ⟨_, exec_enct1_padded hp, exec_decgL_of_enct1 (s := { complete _ _ _ s with din := _ }) h hp rfl⟩
  | false => exact ⟨_, exec_enct1_unpadded hp, exec_dect2_of_enct1 (s := { complete _ _ _ s with din := _ }) h hp rfl⟩

/-- The decode command of the mode undoes ENCT2. -/
theorem exec_enct2_decode {s : State} (h : WellFormedConfig s.ctrl s.alpha) :
    ∃ t, exec .enct2 s = .next t ∧ exec (if padEn s.ctrl then .decgL else .dect3) { t with din := t.dout } =
      .next (complete (word (lane s.din 0) (lane s.din 1) 0 0) 2 false { t with din := t.dout }) := by
  cases hp : padEn s.ctrl with
  | true => exact ⟨_, exec_enct2_padded hp, exec_decgL_of_enct2 (s := { complete _ _ _ s with din := _ }) h hp rfl⟩
  | false => exact ⟨_, exec_enct2_unpadded hp, exec_dect3_of_enct2 (s := { complete _ _ _ s with din := _ }) h hp rfl⟩

/-- Settles O46: in each mode the decode command completes with the bytes of the tail. -/
theorem tailDecodeUndoesTailEncode : Obligations.TailDecodeUndoesTailEncode := by
  intro s h
  obtain ⟨t, ht, hone⟩ := exec_enct1_decode h
  obtain ⟨t', ht', htwo⟩ := exec_enct2_decode h
  obtain ⟨hdout, hcount, herr, -, hoob, -⟩ := complete_completedWith (word (lane s.din 0) 0 0 0) 1 false
    { t with din := t.dout }
  obtain ⟨hdout', hcount', herr', -, hoob', -⟩ := complete_completedWith (word (lane s.din 0) (lane s.din 1) 0 0) 2
    false { t' with din := t'.dout }
  exact ⟨⟨t, _, ht, hone, hdout, hcount, herr, hoob⟩, t', _, ht', htwo, hdout', hcount', herr', hoob'⟩

end Sys2Proof.Machine
end

section
/-! The padding of a string and the failures of its frame (spec/44_decode.md R240): which strings have their padding at
their end, and how the test of a string comes down to its groups. -/

namespace Sys2Proof.Machine

/-- The padding of a string is its final one or two characters, or it has none (R240). -/
def PaddingAtEnd (ctrl alpha : Word) (str : List Byte) : Prop :=
  ∃ body k, k ≤ 2 ∧ (∀ c ∈ body, isPad ctrl alpha c = false) ∧ str = body ++ List.replicate k (padByte alpha)

/-- An OOB symbol in strict mode (R224, R240). -/
def StrictOob (ctrl alpha : Word) (str : List Byte) : Prop := strict ctrl = true ∧ anyOob ctrl alpha str = true

/-- What makes a command of a string's frame fail: misplaced padding in padded mode, or an OOB symbol in strict mode
(R240). -/
def FrameFails (ctrl alpha : Word) (str : List Byte) : Prop :=
  (padEn ctrl = true ∧ ¬PaddingAtEnd ctrl alpha str) ∨ StrictOob ctrl alpha str

variable (ctrl alpha : Word)

/-- Symbols before the last two of a string are not padding (R240). -/
theorem paddingAtEnd_append (front : List Byte) {rest : List Byte} (h : 2 ≤ rest.length) :
    PaddingAtEnd ctrl alpha (front ++ rest) ↔
      (∀ c ∈ front, isPad ctrl alpha c = false) ∧ PaddingAtEnd ctrl alpha rest := by
  constructor
  · rintro ⟨body, k, hk, hbody, heq⟩
    obtain ⟨tail, rfl, hrest⟩ : ∃ tail, body = front ++ tail ∧ rest = tail ++ List.replicate k (padByte alpha) := by
      refine (List.append_eq_append_iff.1 heq).elim id ?_
      rintro ⟨more, hfront, hpad⟩
      have hlen := congrArg List.length hpad
      simp only [List.length_replicate, List.length_append] at hlen
      obtain rfl : more = [] := List.length_eq_zero_iff.1 (by omega)
      exact ⟨[], by simpa using hfront.symm, by simpa using hpad.symm⟩
    simp only [List.forall_mem_append] at hbody
    exact ⟨hbody.1, tail, k, hk, hbody.2, hrest⟩
  · rintro ⟨hfront, body, k, hk, hbody, rfl⟩
    exact ⟨front ++ body, k, hk, List.forall_mem_append.2 ⟨hfront, hbody⟩, (List.append_assoc ..).symm⟩

/-- Of the last two symbols, padding stands only before padding (R227, R240). -/
theorem paddingAtEnd_pair {ctrl : Word} (hp : padEn ctrl = true) (c d : Byte) :
    PaddingAtEnd ctrl alpha [c, d] ↔ (isPad ctrl alpha c = true → isPad ctrl alpha d = true) := by
  constructor
  · rintro ⟨body, k, hk, hbody, heq⟩ hc
    cases k with
    | zero =>
      have hmem : c ∈ body := by simp [show body = [c, d] by simpa using heq.symm]
      exact absurd hc (by simp [hbody c hmem])
    | succ k =>
      have hlast : d = padByte alpha := by
        simpa [List.replicate_succ', ← List.append_assoc] using congrArg List.getLast? heq
      exact hlast ▸ isPad_padByte hp alpha
  · intro h
    cases hd : isPad ctrl alpha d with
    | false =>
      have hc : isPad ctrl alpha c = false := Bool.eq_false_iff.2 fun hc => by simp [h hc] at hd
      exact ⟨[c, d], 0, by decide, by simp [hc, hd], by simp⟩
    | true =>
      obtain ⟨-, rfl⟩ := (isPad_iff ctrl alpha d).1 hd
      cases hc : isPad ctrl alpha c with
      | false => exact ⟨[c], 1, by decide, by simp [hc], rfl⟩
      | true =>
        obtain ⟨-, rfl⟩ := (isPad_iff ctrl alpha c).1 hc
        exact ⟨[], 2, by decide, by simp, rfl⟩

/-- The OOB symbols of two parts of a string (R43). -/
theorem strictOob_append (front rest : List Byte) :
    StrictOob ctrl alpha (front ++ rest) ↔ StrictOob ctrl alpha front ∨ StrictOob ctrl alpha rest := by
  simp [StrictOob, anyOob, and_or_left]

/-- Without padding the frame fails by an OOB symbol only (R240). -/
theorem frameFails_unpadded {ctrl : Word} (h : padEn ctrl = false) (str : List Byte) :
    FrameFails ctrl alpha str ↔ StrictOob ctrl alpha str := by
  simp [FrameFails, h]

/-- A string fails by padding in a part that is not its end, by an OOB symbol there, or by the rest (R240). -/
theorem frameFails_append (front : List Byte) {rest : List Byte} (h : padEn ctrl = true → 2 ≤ rest.length) :
    FrameFails ctrl alpha (front ++ rest) ↔
      ((¬∀ c ∈ front, isPad ctrl alpha c = false) ∨ StrictOob ctrl alpha front) ∨ FrameFails ctrl alpha rest := by
  cases hp : padEn ctrl with
  | false =>
    have hfront : ∀ c ∈ front, isPad ctrl alpha c = false := fun c _ => isPad_unpadded hp alpha c
    rw [or_iff_right (not_not.2 hfront), frameFails_unpadded alpha hp, frameFails_unpadded alpha hp, strictOob_append]
  | true =>
    simp only [FrameFails, strictOob_append, paddingAtEnd_append ctrl alpha front (h hp), hp, true_and, not_and_or]
    tauto

/-- The empty rest of a string does not fail. -/
theorem not_frameFails_nil : ¬FrameFails ctrl alpha [] := by
  rintro (⟨-, hpad⟩ | ⟨-, hoob⟩)
  · exact hpad ⟨[], 0, by decide, by simp, rfl⟩
  · simp [anyOob] at hoob

/-- The padding pattern of the final group passes exactly where the padding is at its end (R227). -/
theorem finalGroupCount_eq_none_iff (hp : padEn ctrl = true) (c0 c1 c2 c3 : Byte) :
    finalGroupCount (isPad ctrl alpha c0) (isPad ctrl alpha c1) (isPad ctrl alpha c2) (isPad ctrl alpha c3) = none ↔
      ¬PaddingAtEnd ctrl alpha [c0, c1, c2, c3] := by
  have table : ∀ p0 p1 p2 p3 : Bool, finalGroupCount p0 p1 p2 p3 = none ↔
      ¬((p0 = false ∧ p1 = false) ∧ (p2 = true → p3 = true)) := by decide
  rw [table, show [c0, c1, c2, c3] = [c0, c1] ++ [c2, c3] from rfl, paddingAtEnd_append _ _ _ (by simp),
    paddingAtEnd_pair _ hp]
  simp

/-- An OOB symbol is neither padding nor in the alphabet (R43, R240). -/
theorem anyOob_iff (str : List Byte) :
    anyOob ctrl alpha str = true ↔ ∃ c ∈ str, isPad ctrl alpha c = false ∧ inAlphabet alpha c = false := by
  simp [anyOob, isOob, and_comm]

end Sys2Proof.Machine
end

section
/-! The commands of a decode frame (spec/44_decode.md R243): each keeps CTRL and ALPHA, and SERR tells at the end
whether one of them failed. -/

namespace Sys2Proof.Machine

/-- From `s` to `t` CTRL and ALPHA are kept; `failed` sets SERR, and nothing else sets SERR or ERR (R41, R301). -/
structure Reports (s t : State) (failed : Prop) : Prop where
  ctrl : t.ctrl = s.ctrl
  alpha : t.alpha = s.alpha
  serr : statusSerr t.status = true ↔ statusSerr s.status = true ∨ failed
  err : statusErr t.status = true → statusErr s.status = true ∨ failed

theorem Reports.refl (s : State) : Reports s s False :=
  ⟨rfl, rfl, by simp, .inl⟩

theorem Reports.trans {s t u : State} {p q : Prop} (h : Reports s t p) (h' : Reports t u q) : Reports s u (p ∨ q) :=
  ⟨h'.ctrl.trans h.ctrl, h'.alpha.trans h.alpha, by rw [h'.serr, h.serr, or_assoc],
    fun he => (h'.err he).elim (fun he' => (h.err he').imp_right .inl) fun hq => .inr (.inr hq)⟩

theorem Reports.congr {s t : State} {p q : Prop} (h : Reports s t p) (hpq : p ↔ q) : Reports s t q :=
  propext hpq ▸ h

/-- A completion reports no failure (R41). -/
theorem reports_complete (r : Word) (n : BitVec 3) (o : Bool) (s : State) : Reports s (complete r n o s) False := by
  obtain ⟨-, herr, -, -, -, hserr, -⟩ := statusComplete_fields n o s.status
  exact ⟨rfl, rfl, by simp [hserr], by simp [herr]⟩

/-- A failing command reports a failure (R301). -/
theorem reports_fail (c : Cause) (o : Bool) (s : State) : Reports s (fail c o s) True := by
  obtain ⟨-, -, -, -, hserr, -⟩ := statusFail_fields c o s.status
  exact ⟨rfl, rfl, by simp [hserr], fun _ => .inr trivial⟩

/-- The last test of a decode command fails by an OOB symbol in strict mode (R224). -/
theorem reports_finishDecode (r : Word) (n : BitVec 3) (o : Bool) (s : State) :
    Reports s (finishDecode r n o s) (strict s.ctrl = true ∧ o = true) := by
  rcases finishDecode_cases r n o s with ⟨hs, ho, h⟩ | ⟨hpass, h⟩
  · rw [h]
    exact (reports_fail _ _ _).congr (by simp [hs, ho])
  · rw [h]
    exact (reports_complete _ _ _ _).congr (by rcases hpass with h | h <;> simp [h])

/-- When DECG fails (R226). -/
theorem exec_decg_reports (s : State) : ∃ t, exec .decg s = .next t ∧
    Reports s t
      ((¬∀ c ∈ lanes s.din 4, isPad s.ctrl s.alpha c = false) ∨ StrictOob s.ctrl s.alpha (lanes s.din 4)) := by
  rw [← operands_noPad_iff]
  by_cases hpad : ∀ k < 4, operandIsPad s k = false
  · exact ⟨_, exec_decg_of_noPad hpad, (reports_finishDecode ..).congr (or_iff_right (not_not.2 hpad)).symm⟩
  · exact ⟨_, exec_decg_of_pad hpad, (reports_fail ..).congr (iff_of_true trivial (.inl hpad))⟩

/-- When DECG.L fails in padded mode (R227). -/
theorem exec_decgL_reports {s : State} (hp : padEn s.ctrl = true) : ∃ t, exec .decgL s = .next t ∧
    Reports s t (FrameFails s.ctrl s.alpha (lanes s.din 4)) := by
  have hfails : FrameFails s.ctrl s.alpha (lanes s.din 4) ↔
      operandPattern s = none ∨ StrictOob s.ctrl s.alpha (lanes s.din 4) := by
    simp only [FrameFails, hp, true_and, lanes_four, ← finalGroupCount_eq_none_iff _ _ hp]
    rfl
  rw [hfails]
  cases hpattern : operandPattern s with
  | none => exact ⟨_, exec_decgL_misplaced hpattern, (reports_fail ..).congr (by simp)⟩
  | some n =>
    exact ⟨_, exec_decgL_of_pattern hpattern, (reports_finishDecode ..).congr (or_iff_right nofun).symm⟩

/-- When DECT2 fails in unpadded mode (R228). -/
theorem exec_dect2_reports {s : State} (hp : padEn s.ctrl = false) : ∃ t, exec .dect2 s = .next t ∧
    Reports s t (FrameFails s.ctrl s.alpha (lanes s.din 2)) :=
  ⟨_, exec_dect2_unpadded hp, (reports_finishDecode ..).congr (frameFails_unpadded _ hp _).symm⟩

/-- When DECT3 fails in unpadded mode (R229). -/
theorem exec_dect3_reports {s : State} (hp : padEn s.ctrl = false) : ∃ t, exec .dect3 s = .next t ∧
    Reports s t (FrameFails s.ctrl s.alpha (lanes s.din 3)) :=
  ⟨_, exec_dect3_unpadded hp, (reports_finishDecode ..).congr (frameFails_unpadded _ hp _).symm⟩

/-- The host's reading of a result reports nothing more. -/
theorem transform_reports {v : Word} {i : Instr} {s : State} {p : Prop}
    (h : ∃ t, exec i { s with din := v } = .next t ∧ Reports { s with din := v } t p) :
    ∃ out t, transform v i s = .next (out, t) ∧ Reports s t p := by
  obtain ⟨t, ht, hctrl, halpha, hserr, herr⟩ := h
  exact ⟨_, _, transform_eq ht, hctrl, halpha, hserr, herr⟩

/-- The host's reading of a result by a fixed number of lanes reports nothing more. -/
theorem transformLanes_reports {v : Word} {i : Instr} {s : State} {p : Prop} (n : Nat)
    (h : ∃ t, exec i { s with din := v } = .next t ∧ Reports { s with din := v } t p) :
    ∃ out t, transformLanes v i n s = .next (out, t) ∧ Reports s t p := by
  obtain ⟨t, ht, hctrl, halpha, hserr, herr⟩ := h
  exact ⟨_, _, transformLanes_eq n ht, hctrl, halpha, hserr, herr⟩

/-- A group more or less leaves a length decodable (R240). -/
@[simp] theorem decodableLength_add_four (padded : Bool) (n : Nat) :
    DecodableLength padded (n + 4) ↔ DecodableLength padded n := by
  simp [DecodableLength]

/-- A group of a frame and what follows it (R243). -/
theorem decodeGroups_group {padded : Bool} {c0 c1 c2 c3 : Byte} {rest out more : List Byte} {i : Instr} {s t u : State}
    (hi : (if padded && rest.length < 4 then Instr.decgL else Instr.decg) = i)
    (ht : transform (word c0 c1 c2 c3) i s = .next (out, t)) (hu : decodeGroups padded rest t = .next (more, u)) :
    decodeGroups padded (c0 :: c1 :: c2 :: c3 :: rest) s = .next (out ++ more, u) := by
  simp only [decodeGroups, hi, ht, hu, andThen_next]

/-- A group of a frame that is not its padded last one (R226, R243). -/
theorem transform_decg_reports (c0 c1 c2 c3 : Byte) (s : State) :
    ∃ out t, transform (word c0 c1 c2 c3) .decg s = .next (out, t) ∧ Reports s t
      ((¬∀ c ∈ [c0, c1, c2, c3], isPad s.ctrl s.alpha c = false) ∨ StrictOob s.ctrl s.alpha [c0, c1, c2, c3]) :=
  transform_reports (by
    simpa only [lanes_four, lane_word_0, lane_word_1, lane_word_2, lane_word_3] using
      exec_decg_reports { s with din := word c0 c1 c2 c3 })

/-- The last group of a padded frame (R227, R243). -/
theorem transform_decgL_reports {s : State} (hp : padEn s.ctrl = true) (c0 c1 c2 c3 : Byte) :
    ∃ out t, transform (word c0 c1 c2 c3) .decgL s = .next (out, t) ∧
      Reports s t (FrameFails s.ctrl s.alpha [c0, c1, c2, c3]) :=
  transform_reports (by
    simpa only [lanes_four, lane_word_0, lane_word_1, lane_word_2, lane_word_3] using
      exec_decgL_reports (s := { s with din := word c0 c1 c2 c3 }) hp)

/-- A 2-symbol tail of an unpadded frame (R228, R243). -/
theorem transformLanes_dect2_reports {s : State} (hp : padEn s.ctrl = false) (c0 c1 : Byte) :
    ∃ out t, transformLanes (word c0 c1 0 0) .dect2 1 s = .next (out, t) ∧
      Reports s t (FrameFails s.ctrl s.alpha [c0, c1]) :=
  transformLanes_reports 1 (by
    simpa only [lanes_two, lane_word_0, lane_word_1] using
      exec_dect2_reports (s := { s with din := word c0 c1 0 0 }) hp)

/-- A 3-symbol tail of an unpadded frame (R229, R243). -/
theorem transformLanes_dect3_reports {s : State} (hp : padEn s.ctrl = false) (c0 c1 c2 : Byte) :
    ∃ out t, transformLanes (word c0 c1 c2 0) .dect3 2 s = .next (out, t) ∧
      Reports s t (FrameFails s.ctrl s.alpha [c0, c1, c2]) :=
  transformLanes_reports 2 (by
    simpa only [lanes_three, lane_word_0, lane_word_1, lane_word_2] using
      exec_dect3_reports (s := { s with din := word c0 c1 c2 0 }) hp)

/-- The groups and the tail of a frame of a decodable length: they end with an output, and they report a failure exactly
where the string's padding or its symbols are invalid (R240, R243). -/
theorem decodeGroups_reports (str : List Byte) : ∀ s, DecodableLength (padEn s.ctrl) str.length →
    ∃ out t, decodeGroups (padEn s.ctrl) str s = .next (out, t) ∧ Reports s t (FrameFails s.ctrl s.alpha str) := by
  induction str using list_induction_fours with
  | short l h =>
    intro s hlen
    rcases l with _ | ⟨c0, _ | ⟨c1, _ | ⟨c2, _ | ⟨c3, r⟩⟩⟩⟩
    · exact ⟨[], s, rfl, (Reports.refl s).congr (iff_of_false id (not_frameFails_nil _ _))⟩
    · cases hp : padEn s.ctrl <;> simp [hp] at hlen
    · cases hp : padEn s.ctrl with
      | true => simp [hp] at hlen
      | false => exact transformLanes_dect2_reports hp c0 c1
    · cases hp : padEn s.ctrl with
      | true => simp [hp] at hlen
      | false => exact transformLanes_dect3_reports hp c0 c1 c2
    · simp only [List.length_cons] at h
      omega
  | group c0 c1 c2 c3 r ih =>
    intro s hlen
    replace hlen : DecodableLength (padEn s.ctrl) r.length := (decodableLength_add_four _ _).1 hlen
    by_cases hlast : padEn s.ctrl = true ∧ r.length < 4
    · obtain ⟨hp, hr⟩ := hlast
      obtain rfl : r = [] := by
        simp only [hp, decodableLength_padded] at hlen
        exact List.length_eq_zero_iff.1 (by omega)
      obtain ⟨out, t, ht, hreport⟩ := transform_decgL_reports hp c0 c1 c2 c3
      exact ⟨_, t, decodeGroups_group (by simp [hp]) ht rfl, hreport⟩
    · obtain ⟨out, t, ht, hreport⟩ := transform_decg_reports c0 c1 c2 c3 s
      obtain ⟨more, u, hu, hreport'⟩ := ih t (by rwa [hreport.ctrl])
      rw [hreport.ctrl] at hu
      rw [hreport.ctrl, hreport.alpha] at hreport'
      have hlong : padEn s.ctrl = true → 2 ≤ r.length := fun hp => by
        have := not_and.1 hlast hp
        omega
      exact ⟨_, u, decodeGroups_group (by simpa using hlast) ht hu,
        (hreport.trans hreport').congr (frameFails_append _ _ [c0, c1, c2, c3] hlong).symm⟩

end Sys2Proof.Machine
end

section
/-! The whole decode (spec/44_decode.md R240-R245): a length that DLEN rejects ends it, and the frame of any other gives
its bytes exactly where no command failed. -/

namespace Sys2Proof.Machine

/-- The state in which DLEN is asked for the length of a string: STATUS is cleared, the length is in DIN (R243). -/
def atLengthCheck (str : List Byte) (s : State) : State :=
  { clearStatus s with din := BitVec.ofNat 32 str.length }

/-- A whole decode after its length check (R243). -/
theorem decodeAll_of_dlen {str : List Byte} {s t : State} (h : exec .dlen (atLengthCheck str s) = .next t) :
    decodeAll str s =
      if statusErr t.status then .next (.invalidEncoding (statusCause t.status), answerRead t.status t)
      else andThen (decodeGroups (padEn t.ctrl) str (answerRead t.ctrl (answerRead t.status t))) finishFrame := by
  have hclrs : runLine (.command .clrs) s = .next (lastRead (clearStatus s), clearStatus s) := runLine_command rfl
  simp [decodeAll, hclrs, command_eq h, Reg.slot]

/-- A length check that fails ends the decode with its cause (R243). -/
theorem decodeAll_of_dlen_fail {str : List Byte} {s : State} {c : Cause}
    (h : exec .dlen (atLengthCheck str s) = .next (fail c false (atLengthCheck str s))) :
    ∃ t, decodeAll str s = .next (.invalidEncoding c.code, t) := by
  obtain ⟨-, -, herr, hcause, -⟩ := fail_failedWith c false (atLengthCheck str s)
  exact ⟨_, by rw [decodeAll_of_dlen h, if_pos herr, hcause]⟩

/-- A length check that completes begins the frame, without a failure (R243). -/
theorem decodeAll_of_dlen_complete {str : List Byte} {s : State} {r : Word}
    (h : exec .dlen (atLengthCheck str s) = .next (complete r 0 false (atLengthCheck str s))) :
    ∃ u, u.ctrl = s.ctrl ∧ u.alpha = s.alpha ∧ statusSerr u.status = false ∧ statusErr u.status = false ∧
      decodeAll str s = andThen (decodeGroups (padEn s.ctrl) str u) finishFrame := by
  obtain ⟨-, -, herr, -, -, -, hserr, -⟩ := complete_completedWith r 0 false (atLengthCheck str s)
  exact ⟨answerRead _ (answerRead _ (complete r 0 false (atLengthCheck str s))), rfl, rfl,
    hserr.trans (by rfl : statusSerr 0 = false), herr, (decodeAll_of_dlen h).trans (if_neg (Bool.eq_false_iff.1 herr))⟩

/-- The operand of DLEN is the length modulo 2^32 (R80). -/
theorem atLengthCheck_din_toNat (str : List Byte) (s : State) :
    (atLengthCheck str s).din.toNat = str.length % 2 ^ 32 :=
  BitVec.toNat_ofNat ..

/-- The operand of DLEN is decodable exactly where the length is. -/
theorem decodableLength_operand (padded : Bool) (str : List Byte) (s : State) :
    DecodableLength padded (atLengthCheck str s).din.toNat ↔ DecodableLength padded str.length := by
  rw [atLengthCheck_din_toNat, DecodableLength, DecodableLength, Nat.mod_mod_of_dvd _ (by decide)]

/-- A string whose length is 0 as an operand of DLEN does not decode (R240). -/
theorem decodeAll_of_empty {str : List Byte} (h : str.length % 2 ^ 32 = 0) (s : State) :
    ∃ t, decodeAll str s = .next (.invalidEncoding 1, t) :=
  decodeAll_of_dlen_fail (c := .empty) (exec_dlen_empty ((atLengthCheck_din_toNat str s).trans h))

/-- A string of a length that no encode of the mode has does not decode (R240). -/
theorem decodeAll_of_not_decodable {str : List Byte} {s : State}
    (h : ¬DecodableLength (padEn s.ctrl) str.length) : ∃ t, decodeAll str s = .next (.invalidEncoding 2, t) :=
  decodeAll_of_dlen_fail (c := .length) (exec_dlen_length ((decodableLength_operand _ str s).not.2 h))

/-- A string of any other length is decoded in one frame, at whose end SERR tells whether the string's padding or its
symbols are invalid (R240, R243). -/
theorem decodeAll_frame {str : List Byte} {s : State} (h0 : str.length % 2 ^ 32 ≠ 0)
    (h : DecodableLength (padEn s.ctrl) str.length) :
    ∃ u out t, u.ctrl = s.ctrl ∧ u.alpha = s.alpha ∧ decodeGroups (padEn s.ctrl) str u = .next (out, t) ∧
      (statusSerr t.status = true ↔ FrameFails s.ctrl s.alpha str) ∧
      (statusErr t.status = true → statusSerr t.status = true) ∧ decodeAll str s = finishFrame out t := by
  obtain ⟨u, hctrl, halpha, hserr, herr, hdecode⟩ := decodeAll_of_dlen_complete (str := str) (s := s)
    (exec_dlen_decodable (by rwa [atLengthCheck_din_toNat]) ((decodableLength_operand _ str s).2 h))
  obtain ⟨out, t, ht, hreport⟩ := decodeGroups_reports str u (by rwa [hctrl])
  rw [hctrl] at ht
  have hreported := hreport.serr
  have hlast := hreport.err
  simp only [hserr, herr, hctrl, halpha, Bool.false_eq_true, false_or] at hreported hlast
  exact ⟨u, out, t, hctrl, halpha, ht, hreported, fun he => hreported.2 (hlast he), by rw [hdecode, ht, andThen_next]⟩

/-- The end of a frame (R243, R244). -/
theorem finishFrame_eq (out : List Byte) (s : State) :
    finishFrame out s =
      .next (if statusSerr s.status then .invalidEncoding (statusFcause s.status) else .bytes out,
        answerRead s.status s) := by
  simp [finishFrame, Reg.slot]

/-- Settles O54: the frame's end gives bytes where SERR is 0, and a command that left ERR set left SERR set too. -/
theorem noPartialDecodeIsExposed : Obligations.NoPartialDecodeIsExposed := by
  intro str s t out hbytes
  by_cases h0 : str.length % 2 ^ 32 = 0
  · obtain ⟨u, hu⟩ := decodeAll_of_empty h0 s
    simp [hu] at hbytes
  by_cases hlen : DecodableLength (padEn s.ctrl) str.length
  · obtain ⟨-, out', u, -, -, -, -, herr, hdecode⟩ := decodeAll_frame h0 hlen
    rw [hdecode, finishFrame_eq] at hbytes
    obtain ⟨hout, rfl⟩ := Prod.mk.inj (Host.Outcome.next.inj hbytes)
    have hserr : statusSerr u.status = false := by
      by_contra hset
      rw [if_pos (by simpa using hset)] at hout
      cases hout
    exact ⟨hserr, Bool.eq_false_iff.2 fun he => by simp [herr he] at hserr⟩
  · obtain ⟨u, hu⟩ := decodeAll_of_not_decodable hlen
    simp [hu] at hbytes

/-- The grounds of rejection, sorted by what finds them: DLEN, or the commands of the frame (R240). -/
theorem invalid_iff (ctrl alpha : Word) (str : List Byte) :
    (str = [] ∨
      (padEn ctrl = true ∧ str.length % 4 ≠ 0) ∨
      (padEn ctrl = true ∧ ¬∃ body k, k ≤ 2 ∧ (∀ c ∈ body, isPad ctrl alpha c = false) ∧
        str = body ++ List.replicate k (padByte alpha)) ∨
      (padEn ctrl = false ∧ str.length % 4 = 1) ∨
      (strict ctrl = true ∧ ∃ c ∈ str, isPad ctrl alpha c = false ∧ inAlphabet alpha c = false)) ↔
      str = [] ∨ ¬DecodableLength (padEn ctrl) str.length ∨ FrameFails ctrl alpha str := by
  rw [← anyOob_iff]
  change (_ ∨ _ ∨ (_ ∧ ¬PaddingAtEnd ctrl alpha str) ∨ _ ∨ StrictOob ctrl alpha str) ↔ _
  cases hp : padEn ctrl <;> simp [FrameFails, hp]

/-- Settles O53: DLEN finds the invalid lengths, and SERR tells the other grounds at the end of the frame. -/
theorem decodeRejectsExactlyInvalidStrings : Obligations.DecodeRejectsExactlyInvalidStrings := by
  intro str s hlen
  dsimp only
  rw [invalid_iff]
  have hmod : str.length % 2 ^ 32 = str.length := Nat.mod_eq_of_lt hlen
  by_cases h0 : str = []
  · obtain ⟨t, ht⟩ := decodeAll_of_empty (str := str) (by rw [h0]; rfl) s
    exact ⟨fun _ => ⟨1, t, ht⟩, fun h => absurd (.inl h0) h⟩
  by_cases hdec : DecodableLength (padEn s.ctrl) str.length
  · obtain ⟨-, out, t, -, -, -, hfails, -, hdecode⟩ :=
      decodeAll_frame (by rwa [hmod, Ne, List.length_eq_zero_iff]) hdec
    simp only [h0, hdec, not_true, false_or, ← hfails, hdecode, finishFrame_eq]
    exact ⟨fun h => ⟨_, _, by rw [if_pos h]⟩, fun h => ⟨_, _, by rw [if_neg h]⟩⟩
  · obtain ⟨t, ht⟩ := decodeAll_of_not_decodable hdec
    exact ⟨fun _ => ⟨2, t, ht⟩, fun h => absurd (.inr (.inl hdec)) h⟩

end Sys2Proof.Machine
end

section
/-! The round trip of a whole input (spec/44_decode.md R245): the frame of an encode gives its bytes group by group, and
none of its commands fails. -/

namespace Sys2Proof.Machine

/-- An encode has a decodable length (R160, R230). -/
theorem decodableLength_targetLength (padded : Bool) (n : Nat) : DecodableLength padded (targetLength padded n) := by
  rw [targetLength_eq]
  cases padded with
  | true =>
    simp only [decodableLength_padded, if_true]
    split_ifs <;> omega
  | false =>
    simp only [decodableLength_unpadded, Bool.false_eq_true, if_false]
    split_ifs <;> omega

/-- Only the empty input has an empty encode (R160). -/
theorem targetLength_ne_zero {padded : Bool} {n : Nat} (h : n ≠ 0) : targetLength padded n ≠ 0 := by
  rw [targetLength_eq]
  split_ifs <;> omega

/-- No symbol is OOB, and an encode has its padding at its end (R165). -/
theorem not_frameFails_encode (s : State) (h : WellFormedConfig s.ctrl s.alpha) (is : List Index) (n : Nat) :
    ¬FrameFails s.ctrl s.alpha (is.map (symbolByte s.alpha) ++ encodedPadding s n) := by
  rintro (⟨-, hpad⟩ | ⟨-, hoob⟩)
  · refine hpad ⟨_, _, ?_, fun c hc => ?_, rfl⟩
    · unfold paddingLength
      split_ifs <;> decide
    · obtain ⟨i, -, rfl⟩ := List.mem_map.1 hc
      exact h.isPad_symbolByte i
  · obtain ⟨c, hc, hpad, halphabet⟩ := (anyOob_iff ..).1 hoob
    rcases List.mem_append.1 hc with hsymbol | hpadding
    · obtain ⟨i, -, rfl⟩ := List.mem_map.1 hsymbol
      simp at halphabet
    · cases hp : padEn s.ctrl with
      | false => simp [encodedPadding_unpadded hp] at hpadding
      | true =>
        rw [List.eq_of_mem_replicate hpadding, isPad_padByte hp] at hpad
        cases hpad

/-- A full group of symbols, at the end of a padded frame or before it (R226, R227). -/
theorem exec_group_symbols {s : State} (h : WellFormedConfig s.ctrl s.alpha) {b0 b1 b2 : Byte} {i : Instr}
    (hi : i = .decgL ∨ i = .decg)
    (hd : s.din = word (symbolByte s.alpha (index0 b0)) (symbolByte s.alpha (index1 b0 b1))
      (symbolByte s.alpha (index2 b1 b2)) (symbolByte s.alpha (index3 b2))) :
    exec i s = .next (complete (word b0 b1 b2 0) 3 false s) := by
  have hdecg := exec_decg_symbols h hd
  rw [byte0_index, byte1_index, byte2_index] at hdecg
  rcases hi with rfl | rfl
  · have hpad : ∀ k < 4, operandIsPad s k = false :=
      (operands_noPad_iff s).2 (by simp [hd, h.isPad_symbolByte])
    exact (exec_decgL_of_noPad hpad).trans hdecg
  · exact hdecg

/-- A group of a frame and what follows it, in the configuration of the frame (R243). -/
theorem decodeGroups_group_gives {padded : Bool} {c0 c1 c2 c3 : Byte} {rest out more : List Byte} {i : Instr}
    {s : State} (hi : (if padded && rest.length < 4 then Instr.decgL else Instr.decg) = i)
    (h : GivesKeepingConfig (transform (word c0 c1 c2 c3) i s) out s)
    (hrest : ∀ t, t.ctrl = s.ctrl → t.alpha = s.alpha → GivesKeepingConfig (decodeGroups padded rest t) more t) :
    GivesKeepingConfig (decodeGroups padded (c0 :: c1 :: c2 :: c3 :: rest) s) (out ++ more) s := by
  obtain ⟨t, ht, hctrl, halpha⟩ := h
  obtain ⟨u, hu, hctrl', halpha'⟩ := hrest t hctrl halpha
  exact ⟨u, decodeGroups_group hi ht hu, hctrl'.trans hctrl, halpha'.trans halpha⟩

/-- One command that completes gives the lanes it counts. -/
theorem transform_gives {v x : Word} {i : Instr} {n : BitVec 3} {o : Bool} {s : State} {out : List Byte}
    (h : exec i { s with din := v } = .next (complete x n o { s with din := v })) (hout : lanes x n.toNat = out) :
    GivesKeepingConfig (transform v i s) out s :=
  hout ▸ transform_givesKeepingConfig h

/-- A full group of symbols gives its three bytes (R226, R227, R243). -/
theorem transform_group_gives {s : State} (h : WellFormedConfig s.ctrl s.alpha) (b0 b1 b2 : Byte) {i : Instr}
    (hi : i = .decgL ∨ i = .decg) :
    GivesKeepingConfig (transform (word (symbolByte s.alpha (index0 b0)) (symbolByte s.alpha (index1 b0 b1))
      (symbolByte s.alpha (index2 b1 b2)) (symbolByte s.alpha (index3 b2))) i s) [b0, b1, b2] s :=
  transform_gives (exec_group_symbols (s := { s with din := word _ _ _ _ }) h hi rfl) (by simp)

/-- The final group of a 1-byte tail gives its byte (R227, R243). -/
theorem transform_enct1_gives {s : State} (h : WellFormedConfig s.ctrl s.alpha) (hp : padEn s.ctrl = true) (b0 : Byte) :
    GivesKeepingConfig (transform (word (symbolByte s.alpha (index0 b0)) (symbolByte s.alpha (tailIndex1 b0))
      (padByte s.alpha) (padByte s.alpha)) .decgL s) [b0] s :=
  transform_gives (exec_decgL_of_enct1 h hp rfl) (by simp)

/-- The unpadded symbols of a 1-byte tail give its byte (R228, R243). -/
theorem transformLanes_enct1_gives {s : State} (h : WellFormedConfig s.ctrl s.alpha) (hp : padEn s.ctrl = false)
    (b0 : Byte) :
    GivesKeepingConfig (transformLanes (word (symbolByte s.alpha (index0 b0)) (symbolByte s.alpha (tailIndex1 b0)) 0 0)
      .dect2 1 s) [b0] s := by
  rw [show [b0] = lanes (word b0 0 0 0) 1 by simp]
  exact transformLanes_givesKeepingConfig 1 (exec_dect2_of_enct1 h hp rfl)

/-- The final group of a 2-byte tail gives its bytes (R227, R243). -/
theorem transform_enct2_gives {s : State} (h : WellFormedConfig s.ctrl s.alpha) (hp : padEn s.ctrl = true)
    (b0 b1 : Byte) :
    GivesKeepingConfig (transform (word (symbolByte s.alpha (index0 b0)) (symbolByte s.alpha (tailIndex1Of2 b0 b1))
      (symbolByte s.alpha (tailIndex2 b1)) (padByte s.alpha)) .decgL s) [b0, b1] s :=
  transform_gives (exec_decgL_of_enct2 h hp rfl) (by simp)

/-- The unpadded symbols of a 2-byte tail give its bytes (R229, R243). -/
theorem transformLanes_enct2_gives {s : State} (h : WellFormedConfig s.ctrl s.alpha) (hp : padEn s.ctrl = false)
    (b0 b1 : Byte) :
    GivesKeepingConfig (transformLanes (word (symbolByte s.alpha (index0 b0)) (symbolByte s.alpha (tailIndex1Of2 b0 b1))
      (symbolByte s.alpha (tailIndex2 b1)) 0) .dect3 2 s) [b0, b1] s := by
  rw [show [b0, b1] = lanes (word b0 b1 0 0) 2 by simp]
  exact transformLanes_givesKeepingConfig 2 (exec_dect3_of_enct2 h hp rfl)

/-- The groups and the tail of a frame give the bytes whose encode they are (R243, R245). -/
theorem decodeGroups_encode (bytes : List Byte) : ∀ s, WellFormedConfig s.ctrl s.alpha →
    GivesKeepingConfig (decodeGroups (padEn s.ctrl)
      ((encodedIndices bytes).map (symbolByte s.alpha) ++ encodedPadding s bytes.length) s) bytes s := by
  induction bytes using list_induction_threes with
  | short l h =>
    intro s hwf
    have hend (t : State) : GivesKeepingConfig (decodeGroups true [] t) [] t := ⟨t, rfl, rfl, rfl⟩
    rcases l with _ | ⟨b0, _ | ⟨b1, _ | ⟨b2, r⟩⟩⟩
    · exact ⟨s, by simp [encodedIndices, encodedPadding, paddingLength, decodeGroups], rfl, rfl⟩
    · cases hp : padEn s.ctrl with
      | true =>
        simp only [encodedIndices, encodedPadding_padded hp, List.map_cons, List.map_nil, List.cons_append,
          List.nil_append]
        exact decodeGroups_group_gives (by simp) (transform_enct1_gives hwf hp b0) fun t _ _ => hend t
      | false =>
        rw [encodedPadding_unpadded hp]
        exact transformLanes_enct1_gives hwf hp b0
    · cases hp : padEn s.ctrl with
      | true =>
        simp only [encodedIndices, encodedPadding_padded hp, List.map_cons, List.map_nil, List.cons_append,
          List.nil_append]
        exact decodeGroups_group_gives (by simp) (transform_enct2_gives hwf hp b0 b1) fun t _ _ => hend t
      | false =>
        rw [encodedPadding_unpadded hp]
        exact transformLanes_enct2_gives hwf hp b0 b1
    · simp only [List.length_cons] at h
      omega
  | group b0 b1 b2 r ih =>
    intro s hwf
    simp only [encodedIndices, List.map_cons, List.cons_append, List.length_cons]
    refine decodeGroups_group_gives rfl (transform_group_gives hwf b0 b1 b2 (ite_eq_or_eq ..)) fun t hctrl halpha => ?_
    have hrest := ih t (by rwa [hctrl, halpha])
    rwa [encodedPadding, hctrl, halpha, ← paddingLength_add_three] at hrest

/-- Settles O55: the frame of an encode gives its bytes, and no command of it fails. -/
theorem decodeUndoesEncode : Obligations.DecodeUndoesEncode := by
  refine ⟨fun bytes s hwf hne hlen => ?_, fun s => ⟨rfl, decodeAll_of_empty rfl s⟩⟩
  obtain ⟨t, ht, hctrl, halpha⟩ := encodeAll_gives bytes s
  have hlength : ((encodedIndices bytes).map (symbolByte s.alpha) ++ encodedPadding s bytes.length).length =
      targetLength (padEn s.ctrl) bytes.length := by
    simp [encodedPadding, length_encodedIndices_add_paddingLength]
  have hnonempty : targetLength (padEn s.ctrl) bytes.length ≠ 0 := targetLength_ne_zero (by simpa using hne)
  obtain ⟨u, out, v, huctrl, hualpha, hgroups, hserr, -, hdecode⟩ := decodeAll_frame (s := t)
    (by rwa [hlength, Nat.mod_eq_of_lt hlen]) (by rw [hlength, hctrl]; exact decodableLength_targetLength _ _)
  rw [hctrl] at huctrl hgroups hserr
  rw [halpha] at hualpha hserr
  obtain ⟨v', hv', -⟩ := decodeGroups_encode bytes u (by rwa [huctrl, hualpha])
  rw [encodedPadding, huctrl, hualpha] at hv'
  obtain ⟨rfl, rfl⟩ := Prod.mk.inj (Host.Outcome.next.inj (hgroups.symm.trans hv'))
  have hok : ¬statusSerr v.status = true := fun h => not_frameFails_encode s hwf _ _ (hserr.1 h)
  rw [finishFrame_eq, if_neg hok] at hdecode
  exact ⟨_, t, _, ht, hdecode⟩

end Sys2Proof.Machine
end

section
/-! The control commands (spec/45_control.md R270, R271): the word of NOP is the one command word with OP = 0x0, and CLRS
is the one command that clears the sticky fields. -/

namespace Sys2Proof

/-- A command's word carries the command's operation code (R100, R101). -/
theorem opField_encode (i : Instr) : opField (encode i) = i.fields.1 := by
  cases i <;> rfl

/-- The opcode map names NOP alone at OP = 0x0 (R101, R270). -/
theorem Instr.eq_nop_of_op_eq_zero {i : Instr} (h : i.fields.1 = 0x0#4) : i = .nop := by
  cases i with
  | nop => rfl
  | _ => exact absurd h (by decide)

/-- Different commands have different words (R101). -/
theorem encode_injective : Function.Injective encode := fun i j h =>
  Except.ok.inj (by rw [← decode_encode i, h, decode_encode j])

end Sys2Proof

namespace Sys2Proof.Machine

/-- Settles O22: a word with OP = 0x0 that decodes is the word of NOP. -/
theorem nopChangesNothing : Obligations.NopChangesNothing := by
  refine ⟨decode_encode .nop, fun s => rfl, fun w hop hne => exists_decode_error fun hlegal => hne ?_⟩
  obtain ⟨i, hi⟩ := (exists_decode_ok_iff w).2 hlegal
  obtain rfl := eq_encode_of_decode hi
  obtain rfl := Instr.eq_nop_of_op_eq_zero ((opField_encode i).symm.trans hop)
  rfl

/-- A command other than CLRS keeps the sticky fields, since a write of its word to CMD does (R44). -/
theorem exec_stickyKept {i : Instr} (hi : i ≠ .clrs) (s : State) : ∃ t, exec i s = .next t ∧ StickyKept s t := by
  obtain ⟨t, ht⟩ := exec_next i s
  have hword : encode i ≠ encode .clrs := encode_injective.ne hi
  have hcommand : performCommand (encode i) s = exec i s := performCommand_of_decode (decode_encode i) s
  exact ⟨t, ht, performCommand_stickyKept hword (hcommand.trans ht)⟩

/-- Every field of STATUS is 0 in the word 0 (R27). -/
theorem statusFields_zero :
    statusCount 0 = 0 ∧ statusErr 0 = false ∧ statusCause 0 = 0 ∧ statusOob 0 = false ∧ statusSerr 0 = false ∧
      statusSoob 0 = false ∧ statusFcause 0 = 0 := by
  decide

/-- Settles O23: CLRS is the clearing of STATUS, and every other command keeps the sticky fields. -/
theorem clrsClearsStatusOnly : Obligations.ClrsClearsStatusOnly :=
  ⟨decode_encode .clrs,
    fun s => ⟨clearStatus s, rfl, clearStatus_status s, clearStatus_dout s, clearStatus_same s, statusFields_zero⟩,
    fun _ s hi => exec_stickyKept hi s⟩

end Sys2Proof.Machine
end

section
/-! The sticky report of failures (spec/60_exceptions.md R301, R307; spec/10_state.md R44): a command other than NOP that
leaves ERR set has failed, and until a clear no later step loses what the first failure left. -/

namespace Sys2Proof.Machine

/-- A write to CMD of another word than that of NOP leaves ERR set only by failing: a completion and CLRS leave it 0
(R41, R271, R301). -/
theorem failedWith_of_performCommand_err {w : Word} {s t : State} (hw : w ≠ 0)
    (h : performCommand w s = .next t) (herr : statusErr t.status = true) : ∃ c o, FailedWith s t c o := by
  rcases performCommand_cases w s with ⟨i, hd, he⟩ | ⟨e, -, he⟩
  · rw [he] at h
    rcases exec_cases i s with ⟨rfl, -⟩ | ⟨-, hx⟩ | ⟨-, -, ⟨r, n, o, -, hx⟩ | ⟨c, o, -, hx⟩⟩
    · exact absurd (eq_encode_of_decode hd) hw
    · obtain rfl := Host.Outcome.next.inj (h.symm.trans hx)
      exact absurd (a := statusErr 0 = true) herr (by decide)
    · obtain rfl := Host.Outcome.next.inj (h.symm.trans hx)
      obtain ⟨-, -, hcompleted, -⟩ := complete_completedWith r n o s
      exact absurd (hcompleted.symm.trans herr) nofun
    · obtain rfl := Host.Outcome.next.inj (h.symm.trans hx)
      exact ⟨c.code, o, fail_failedWith c o s⟩
  · obtain rfl := Host.Outcome.next.inj (h.symm.trans he)
    exact ⟨Cause.illegal.code, false, fail_failedWith .illegal false s⟩

theorem StickyKept.trans {s t u : State} (h : StickyKept s t) (h' : StickyKept t u) : StickyKept s u := by
  obtain ⟨hserr, hsoob⟩ := h
  obtain ⟨hserr', hsoob'⟩ := h'
  refine ⟨fun hs => ?_, fun hs => hsoob' (hsoob hs)⟩
  obtain ⟨ht, hfcause⟩ := hserr hs
  obtain ⟨hu, hfcause'⟩ := hserr' ht
  exact ⟨hu, hfcause'.trans hfcause⟩

/-- Any number of steps without CLRS and reset keeps the sticky fields, since each one does (R44, R307). -/
theorem UnclearedSteps.stickyKept {s t : State} (h : UnclearedSteps s t) : StickyKept s t := by
  induction h with
  | refl => exact .of_status_eq rfl
  | tail _ hreset hclrs hstep ih => exact ih.trans (stickyFieldsLastUntilCleared _ _ hstep hreset hclrs)

/-- The first failure after a clear sets SERR and writes FCAUSE with its own cause (R301). -/
theorem FailedWith.first {s t : State} {c : BitVec 3} {o : Bool} (h : FailedWith s t c o)
    (hclear : statusSerr s.status = false) :
    statusSerr t.status = true ∧ statusFcause t.status = statusCause t.status := by
  obtain ⟨-, -, -, hcause, -, hserr, -, hfcause, -⟩ := h
  exact ⟨hserr, by simp [hfcause, hcause, hclear]⟩

/-- A failure accumulates its OOB in SOOB (R301). -/
theorem FailedWith.soob_eq {s t : State} {c : BitVec 3} {o : Bool} (h : FailedWith s t c o) :
    statusSoob t.status = (statusSoob s.status || statusOob t.status) := by
  obtain ⟨-, -, -, -, hoob, -, hsoob, -⟩ := h
  rw [hsoob, hoob]

/-- Settles O39: the first failure leaves its cause in FCAUSE, and the steps up to the second failure keep it, as does
that failure itself. -/
theorem secondFailureKeepsTheFirstCause : Obligations.SecondFailureKeepsTheFirstCause := by
  intro s t v u w x hw hx hclear hfirst herr hbetween hsecond herr'
  rw [commandEvent, step_enqueueFirst, performEvent_cmd] at hfirst hsecond
  obtain ⟨c, o, ht⟩ := failedWith_of_performCommand_err hw hfirst herr
  obtain ⟨c', o', hu⟩ := failedWith_of_performCommand_err hx hsecond herr'
  obtain ⟨htserr, htfcause⟩ := ht.first hclear
  obtain ⟨hserrKept, hsoobKept⟩ := hbetween.stickyKept.trans hu.stickyKept
  obtain ⟨huserr, hufcause⟩ := hserrKept htserr
  exact ⟨htserr, htfcause, huserr, hufcause.trans htfcause, hu.soob_eq, hsoobKept⟩

end Sys2Proof.Machine
end

section
/-! The reset input (spec/70_reset_and_hazards.md R340, R341): the registers after it are those of the reset state
whatever access was in flight, what is still to come on the bus stays, and only a read in flight is answered. -/

namespace Sys2Proof.Machine

@[simp] theorem performReset_none (s : State) : performReset none s = resetRegisters s := rfl

@[simp] theorem performReset_write (off : Offset) (width : Nat) (v : Word) (s : State) :
    performReset (some (.write off width v)) s = resetRegisters s := rfl

@[simp] theorem performReset_read (off : Offset) (width : Nat) (s : State) :
    performReset (some (.read off width)) s = answerFree (resetRegisters s) := rfl

/-- The reset keeps what has not reached the block yet (R341). -/
theorem performReset_bus (f : Option HostAccess) (s : State) : (performReset f s).bus = s.bus := by
  rcases f with _ | ⟨_, _⟩ | ⟨_, _, _⟩ <;> simp

/-- The fields of CTRL and ALPHA at reset: padded mode, permissive decode, the standard alphabet with padding '=', and
no reserved bit (R340). -/
theorem configFields_reset :
    padEn State.reset.ctrl = true ∧ strict State.reset.ctrl = false ∧ State.reset.ctrl &&& ~~~ctrlMask = 0 ∧
      sym62 State.reset.alpha = 0x2B#7 ∧ sym63 State.reset.alpha = 0x2F#7 ∧ padch State.reset.alpha = 0x3D#7 ∧
      State.reset.alpha &&& ~~~alphaMask = 0 := by
  decide

/-- Settles O6: the reset event leaves the registers of the reset state, and their fields are those of R340. -/
theorem resetLeavesTheStatedRegisters : Obligations.ResetLeavesTheStatedRegisters := by
  refine ⟨⟨rfl, rfl, rfl, rfl, rfl⟩, fun s f => ⟨performReset f s, step_enqueueFirst _ s, ?_⟩⟩
  obtain ⟨hctrl, halpha, hdin, hdout, hstatus⟩ := performReset_registers f s
  obtain ⟨hpad, hstrict, hctrlReserved, h62, h63, hpadch, halphaReserved⟩ := configFields_reset
  rw [hctrl, halpha]
  exact ⟨hpad, hstrict, hctrlReserved, h62, h63, hpadch, halphaReserved, hdin, hdout, hstatus⟩

/-- Settles O7, by the kind of the access in flight. -/
theorem resetActsBetweenAccesses : Obligations.ResetActsBetweenAccesses := by
  intro s f
  obtain ⟨hctrl, halpha, hdin, hdout, hstatus⟩ := performReset_registers f s
  refine ⟨performReset f s, step_enqueueFirst _ s, performReset_bus f s, hctrl, halpha, hdin, hdout, hstatus,
    ?_, ?_, ?_⟩
  · rintro rfl
    simp
  · rintro off width v rfl
    simp
  · rintro off width rfl
    exact ⟨Config.freeRead s.freeReads, by simp⟩

/-- Settles O44: the reset state is where the register invariant starts. -/
theorem resetRegistersAreLegal : Obligations.ResetRegistersAreLegal :=
  registersLegal_reset

end Sys2Proof.Machine
end

section
/-! Construction (spec/70_reset_and_hazards.md R343; spec/10_state.md R22, R23): the two register writes, and the fields
that read back what was written where every character has 7 bits. -/

namespace Sys2Proof.Machine

/-- `wr REG, v` for a register other than CMD is the write of its slot (R73, R110). -/
theorem runLine_wr {reg : Reg} (h : reg.slot ≠ .cmd) (v : Word) (s : State) :
    runLine (.wr reg v) s = .next (lastRead (writeSlot reg.slot v s), writeSlot reg.slot v s) := by
  have hstep : step (enqueueFirst (.access (HostLine.wr reg v).access) s) = .next (writeSlot reg.slot v s) :=
    (step_enqueueFirst _ s).trans (performEvent_write reg.slot v s h)
  simp [runLine, hstep]

/-- `cfg` writes ALPHA and then CTRL (R111). -/
theorem runLines_cfg (c62 c63 : Byte) (pad : Option Byte) (strictMode : Bool) (s : State) :
    runLines (Pseudo.cfg c62 c63 pad strictMode).expand s =
      .next ((), writeSlot .ctrl (ctrlImage pad.isSome strictMode)
        (writeSlot .alpha (word c62 c63 (pad.getD 0) 0) s)) := by
  simp [Pseudo.expand, runLines, runLine_wr (reg := .alpha) nofun, runLine_wr (reg := .ctrl) nofun, Reg.slot]

/-- The mask of ALPHA keeps the low seven bits of each of the lanes 0 to 2 (R23). -/
theorem getField_and_alphaMask (w : Word) {k : Nat} (hk : k < 3) :
    getField (w &&& alphaMask) (8 * k) 7 = (lane w k).setWidth 7 := by
  have hmask : ∀ k < 3, ∀ i < 7, alphaMask.getLsbD (8 * k + i) = true := by decide
  apply BitVec.eq_of_getLsbD_eq
  intro i hi
  rw [getLsbD_getField, BitVec.getLsbD_setWidth, getLsbD_lane, BitVec.getLsbD_and, hmask k hk i hi]
  simp [show i < 8 by omega]

/-- SYM62 after a write of ALPHA is the low seven bits of lane 0 (R23, R73). -/
theorem sym62_and_alphaMask (w : Word) : sym62 (w &&& alphaMask) = (lane w 0).setWidth 7 :=
  getField_and_alphaMask w (k := 0) (by decide)

/-- SYM63 after a write of ALPHA is the low seven bits of lane 1 (R23, R73). -/
theorem sym63_and_alphaMask (w : Word) : sym63 (w &&& alphaMask) = (lane w 1).setWidth 7 :=
  getField_and_alphaMask w (k := 1) (by decide)

/-- PADCH after a write of ALPHA is the low seven bits of lane 2 (R23, R73). -/
theorem padch_and_alphaMask (w : Word) : padch (w &&& alphaMask) = (lane w 2).setWidth 7 :=
  getField_and_alphaMask w (k := 2) (by decide)

/-- A 7-bit character survives the way through a byte lane into a symbol field (R343). -/
theorem toNat_setWidth_ofNat_of_le {c : Nat} (h : c ≤ 0x7F) : ((BitVec.ofNat 8 c).setWidth 7).toNat = c := by
  rw [BitVec.toNat_setWidth, BitVec.toNat_ofNat]
  omega

/-- The image of CTRL has the mode in its two fields and nothing outside the write mask (R22, R343). -/
theorem padEn_strict_ctrlImage : ∀ padded strictMode : Bool,
    padEn (ctrlImage padded strictMode &&& ctrlMask) = padded ∧
      strict (ctrlImage padded strictMode &&& ctrlMask) = strictMode := by
  decide

/-- The padding lane of `cfg`: the padding character where there is one, and 0 else (R343). -/
theorem getD_map_ofNat (padding : Option Nat) :
    (padding.map (BitVec.ofNat 8)).getD 0 = BitVec.ofNat 8 (padding.getD 0) := by
  cases padding <;> rfl

/-- Settles O57: construction is `cfg`, whose two writes read back field by field, and the host refuses on the negation
of its guard. -/
theorem constructSetsTheConfiguration : Obligations.ConstructSetsTheConfiguration := by
  intro at62 at63 padding strictMode
  constructor
  · intro h62 h63 hpad
    refine ⟨_, if_pos ⟨h62, h63, hpad⟩, fun s =>
      ⟨_, runLines_cfg _ _ _ _ s, ?_, ?_, ?_, ?_, ?_, rfl, rfl, rfl, rfl, rfl⟩⟩
    · rw [writeSlot_ctrl_alpha, writeSlot_alpha_alpha, sym62_and_alphaMask, lane_word_0,
        toNat_setWidth_ofNat_of_le h62]
    · rw [writeSlot_ctrl_alpha, writeSlot_alpha_alpha, sym63_and_alphaMask, lane_word_1,
        toNat_setWidth_ofNat_of_le h63]
    · rw [writeSlot_ctrl_alpha, writeSlot_alpha_alpha, padch_and_alphaMask, lane_word_2, getD_map_ofNat,
        toNat_setWidth_ofNat_of_le hpad]
    · simp [padEn_strict_ctrlImage]
    · simp [padEn_strict_ctrlImage]
  · intro hrefused
    exact if_neg (by omega)

end Sys2Proof.Machine
end
